-- ==== Sys2Proof/Word.lean ====
section
/-! DEFINITION. The word types: 8-bit data, 16-bit addresses and instruction words (spec R1, R6, R11). -/

namespace Sys2Proof

/-- The data width: registers and memory cells are 8 bits (R1, R6). -/
abbrev Byte := BitVec 8

/-- The width of `I`, `pc`, a stack entry and an instruction word (R23, R24, R25, R80). -/
abbrev Word := BitVec 16

end Sys2Proof
end

