-- ==== Sys2Proof/Syntax.lean ====
section
/-! DEFINITION. The instruction set: one constructor per row of the opcode map (spec R85), with the operand
fields R82 gives it. -/

namespace Sys2Proof

/-- A register field `X` or `Y`: 4 bits, all 16 values legal (R82). -/
abbrev Reg := BitVec 4

/-- The flag register `VF` is `V[15]` (R22). -/
abbrev Reg.vf : Reg := 15

/-- The 34 instructions of R85. The docstring of a constructor gives its pattern and its rule. -/
inductive Instr where
  /-- `00E0` CLS, clear the framebuffer (R190). -/
  | cls
  /-- `00EE` RET, return from subroutine (R130). -/
  | ret
  /-- `1NNN` JP, jump (R131). -/
  | jp (nnn : BitVec 12)
  /-- `2NNN` CALL, call subroutine (R132). -/
  | call (nnn : BitVec 12)
  /-- `3XNN` SE_IMM, skip if `V[X] = NN` (R133). -/
  | seImm (x : Reg) (nn : Byte)
  /-- `4XNN` SNE_IMM, skip if `V[X] ≠ NN` (R134). -/
  | sneImm (x : Reg) (nn : Byte)
  /-- `5XY0` SE_REG, skip if `V[X] = V[Y]` (R135). -/
  | seReg (x y : Reg)
  /-- `6XNN` LD_IMM, load immediate (R150). -/
  | ldImm (x : Reg) (nn : Byte)
  /-- `7XNN` ADD_IMM, add immediate without flag (R151). -/
  | addImm (x : Reg) (nn : Byte)
  /-- `8XY0` LD_REG, copy register (R152). -/
  | ldReg (x y : Reg)
  /-- `8XY1` OR (R153). -/
  | orReg (x y : Reg)
  /-- `8XY2` AND (R154). -/
  | andReg (x y : Reg)
  /-- `8XY3` XOR (R155). -/
  | xorReg (x y : Reg)
  /-- `8XY4` ADD_REG, add with carry out (R156). -/
  | addReg (x y : Reg)
  /-- `8XY5` SUB, subtract with no-borrow out (R157). -/
  | sub (x y : Reg)
  /-- `8XY6` SHR, shift right by one; `Y` is encoded but not used (R158). -/
  | shr (x y : Reg)
  /-- `8XY7` SUBN, reverse subtract (R159). -/
  | subn (x y : Reg)
  /-- `8XYE` SHL, shift left by one; `Y` is encoded but not used (R160). -/
  | shl (x y : Reg)
  /-- `9XY0` SNE_REG, skip if `V[X] ≠ V[Y]` (R136). -/
  | sneReg (x y : Reg)
  /-- `ANNN` LD_INDEX, load index register (R170). -/
  | ldIndex (nnn : BitVec 12)
  /-- `BNNN` JP_V0, jump to `NNN` plus register 0 (R137). -/
  | jpV0 (nnn : BitVec 12)
  /-- `CXNN` RND, random AND mask (R161). -/
  | rnd (x : Reg) (nn : Byte)
  /-- `DXYN` DRW, draw sprite (R191). -/
  | drw (x y : Reg) (n : BitVec 4)
  /-- `EX9E` SKP, skip if key pressed (R200). -/
  | skp (x : Reg)
  /-- `EXA1` SKNP, skip if key not pressed (R201). -/
  | sknp (x : Reg)
  /-- `FX07` LD_FROM_DT, read the delay timer (R202). -/
  | ldFromDt (x : Reg)
  /-- `FX0A` LD_KEY, wait for a key (R203). -/
  | ldKey (x : Reg)
  /-- `FX15` LD_TO_DT, set the delay timer (R205). -/
  | ldToDt (x : Reg)
  /-- `FX18` LD_TO_ST, set the sound timer (R206). -/
  | ldToSt (x : Reg)
  /-- `FX1E` ADD_INDEX, add register to index (R171). -/
  | addIndex (x : Reg)
  /-- `FX29` LD_FONT, point index at a font glyph (R172). -/
  | ldFont (x : Reg)
  /-- `FX33` LD_BCD, store decimal digits (R173). -/
  | ldBcd (x : Reg)
  /-- `FX55` ST_REGS, store registers `V[0]` to `V[X]` (R174). -/
  | stRegs (x : Reg)
  /-- `FX65` LD_REGS, load registers `V[0]` to `V[X]` (R175). -/
  | ldRegs (x : Reg)
  deriving DecidableEq, Repr

/-- The mnemonic of R85's table; it has no semantic content (R101, log 35). -/
def Instr.mnemonic : Instr → String
  | .cls => "CLS"
  | .ret => "RET"
  | .jp _ => "JP"
  | .call _ => "CALL"
  | .seImm _ _ => "SE_IMM"
  | .sneImm _ _ => "SNE_IMM"
  | .seReg _ _ => "SE_REG"
  | .ldImm _ _ => "LD_IMM"
  | .addImm _ _ => "ADD_IMM"
  | .ldReg _ _ => "LD_REG"
  | .orReg _ _ => "OR"
  | .andReg _ _ => "AND"
  | .xorReg _ _ => "XOR"
  | .addReg _ _ => "ADD_REG"
  | .sub _ _ => "SUB"
  | .shr _ _ => "SHR"
  | .subn _ _ => "SUBN"
  | .shl _ _ => "SHL"
  | .sneReg _ _ => "SNE_REG"
  | .ldIndex _ => "LD_INDEX"
  | .jpV0 _ => "JP_V0"
  | .rnd _ _ => "RND"
  | .drw _ _ _ => "DRW"
  | .skp _ => "SKP"
  | .sknp _ => "SKNP"
  | .ldFromDt _ => "LD_FROM_DT"
  | .ldKey _ => "LD_KEY"
  | .ldToDt _ => "LD_TO_DT"
  | .ldToSt _ => "LD_TO_ST"
  | .addIndex _ => "ADD_INDEX"
  | .ldFont _ => "LD_FONT"
  | .ldBcd _ => "LD_BCD"
  | .stRegs _ => "ST_REGS"
  | .ldRegs _ => "LD_REGS"

end Sys2Proof
end

