-- ==== Sys2Proof/WellFormed.lean ====
section
/-! DEFINITION. What a well-formed instruction word, program image and key code are. The opcode map of spec R85 stands here
as data (mask and match), apart from the decoder, which follows R84's algorithm. An `Instr` needs no check of its own: its
operand types hold exactly the values R82 allows (log 38). -/

namespace Sys2Proof

/-- One row of R85: word `op` is the instruction exactly when `op AND mask = pattern`. -/
structure OpcodeRow where
  mnemonic : String
  pattern  : Word
  mask     : Word
  deriving DecidableEq, Repr

/-- The test of R85: every fixed digit of the pattern counts (R84, C5). -/
def OpcodeRow.accepts (r : OpcodeRow) (op : Word) : Bool := op &&& r.mask == r.pattern

/-- Families 0x0 to 0x7 of R85. -/
def opcodeRowsLow : List OpcodeRow :=
  [⟨"CLS", 0x00E0, 0xFFFF⟩, ⟨"RET", 0x00EE, 0xFFFF⟩, ⟨"JP", 0x1000, 0xF000⟩, ⟨"CALL", 0x2000, 0xF000⟩,
   ⟨"SE_IMM", 0x3000, 0xF000⟩, ⟨"SNE_IMM", 0x4000, 0xF000⟩, ⟨"SE_REG", 0x5000, 0xF00F⟩,
   ⟨"LD_IMM", 0x6000, 0xF000⟩, ⟨"ADD_IMM", 0x7000, 0xF000⟩]

/-- Family 0x8 of R85. -/
def opcodeRowsAlu : List OpcodeRow :=
  [⟨"LD_REG", 0x8000, 0xF00F⟩, ⟨"OR", 0x8001, 0xF00F⟩, ⟨"AND", 0x8002, 0xF00F⟩, ⟨"XOR", 0x8003, 0xF00F⟩,
   ⟨"ADD_REG", 0x8004, 0xF00F⟩, ⟨"SUB", 0x8005, 0xF00F⟩, ⟨"SHR", 0x8006, 0xF00F⟩, ⟨"SUBN", 0x8007, 0xF00F⟩,
   ⟨"SHL", 0x800E, 0xF00F⟩]

/-- Families 0x9 to 0xE of R85. -/
def opcodeRowsHigh : List OpcodeRow :=
  [⟨"SNE_REG", 0x9000, 0xF00F⟩, ⟨"LD_INDEX", 0xA000, 0xF000⟩, ⟨"JP_V0", 0xB000, 0xF000⟩, ⟨"RND", 0xC000, 0xF000⟩,
   ⟨"DRW", 0xD000, 0xF000⟩, ⟨"SKP", 0xE09E, 0xF0FF⟩, ⟨"SKNP", 0xE0A1, 0xF0FF⟩]

/-- Family 0xF of R85. -/
def opcodeRowsMisc : List OpcodeRow :=
  [⟨"LD_FROM_DT", 0xF007, 0xF0FF⟩, ⟨"LD_KEY", 0xF00A, 0xF0FF⟩, ⟨"LD_TO_DT", 0xF015, 0xF0FF⟩,
   ⟨"LD_TO_ST", 0xF018, 0xF0FF⟩, ⟨"ADD_INDEX", 0xF01E, 0xF0FF⟩, ⟨"LD_FONT", 0xF029, 0xF0FF⟩,
   ⟨"LD_BCD", 0xF033, 0xF0FF⟩, ⟨"ST_REGS", 0xF055, 0xF0FF⟩, ⟨"LD_REGS", 0xF065, 0xF0FF⟩]

/-- The complete opcode map of R85, in its order. -/
def opcodeTable : List OpcodeRow := opcodeRowsLow ++ opcodeRowsAlu ++ opcodeRowsHigh ++ opcodeRowsMisc

/-- A 16-bit word that is an instruction: some row of R85 accepts it; every other word is `Unknown` (R98). -/
def wordWellFormed (op : Word) : Bool := opcodeTable.any (·.accepts op)

/-- A program image that `load_program` accepts: at most 3584 bytes (`PROG_MAX`, R6, R242). -/
def programWellFormed (bytes : List Byte) : Bool := decide (bytes.length ≤ 3584)

/-- A key code inside the interface of `set_key`: 0 to 15 (R244). -/
def keyCodeWellFormed (code : Nat) : Bool := decide (code < 16)

end Sys2Proof
end

