-- ==== Sys2Proof/Decode.lean ====
section
/-! DEFINITION. The decoder (spec R80 to R91, R98), total on any word and any bytes, and after it the encoder. -/

namespace Sys2Proof

/-- The family nibble `op[15:12]` (R12, R81). -/
def Word.family (op : Word) : BitVec 4 := op.extractLsb' 12 4

/-- `X = op[11:8]` (R82). -/
def Word.fieldX (op : Word) : Reg := op.extractLsb' 8 4

/-- `Y = op[7:4]` (R82). -/
def Word.fieldY (op : Word) : Reg := op.extractLsb' 4 4

/-- `N = op[3:0]` (R82). -/
def Word.fieldN (op : Word) : BitVec 4 := op.extractLsb' 0 4

/-- `NN = op[7:0]` (R82). -/
def Word.fieldNN (op : Word) : Byte := op.extractLsb' 0 8

/-- `NNN = op[11:0]` (R82). -/
def Word.fieldNNN (op : Word) : BitVec 12 := op.extractLsb' 0 12

/-- Family 0x0: only the two exact words are instructions (R86). -/
def decodeFamily0 (op : Word) : Option Instr :=
  if op = 0x00E0 then some .cls
  else if op = 0x00EE then some .ret
  else none

/-- Family 0x8: the secondary selector is `op[3:0]` (R88). -/
def decodeFamily8 (op : Word) : Option Instr :=
  let x := Word.fieldX op
  let y := Word.fieldY op
  let n := Word.fieldN op
  if n = 0x0 then some (.ldReg x y)
  else if n = 0x1 then some (.orReg x y)
  else if n = 0x2 then some (.andReg x y)
  else if n = 0x3 then some (.xorReg x y)
  else if n = 0x4 then some (.addReg x y)
  else if n = 0x5 then some (.sub x y)
  else if n = 0x6 then some (.shr x y)
  else if n = 0x7 then some (.subn x y)
  else if n = 0xE then some (.shl x y)
  else none

/-- Family 0xE: the secondary selector is `op[7:0]` (R89). -/
def decodeFamilyE (op : Word) : Option Instr :=
  let x := Word.fieldX op
  let nn := Word.fieldNN op
  if nn = 0x9E then some (.skp x)
  else if nn = 0xA1 then some (.sknp x)
  else none

/-- Family 0xF: the secondary selector is `op[7:0]` (R90). -/
def decodeFamilyF (op : Word) : Option Instr :=
  let x := Word.fieldX op
  let nn := Word.fieldNN op
  if nn = 0x07 then some (.ldFromDt x)
  else if nn = 0x0A then some (.ldKey x)
  else if nn = 0x15 then some (.ldToDt x)
  else if nn = 0x18 then some (.ldToSt x)
  else if nn = 0x1E then some (.addIndex x)
  else if nn = 0x29 then some (.ldFont x)
  else if nn = 0x33 then some (.ldBcd x)
  else if nn = 0x55 then some (.stRegs x)
  else if nn = 0x65 then some (.ldRegs x)
  else none

/-- The decoder of R84: the top nibble selects the family, a secondary nibble or byte the instruction; `none` is the
spec's `Unknown` (R98). In families 0x5 and 0x9 nibble 4 must be 0 (R87, C5). Decoding reads only the word (R112). -/
def decodeWord (op : Word) : Option Instr :=
  let f := Word.family op
  let x := Word.fieldX op
  let y := Word.fieldY op
  let n := Word.fieldN op
  let nn := Word.fieldNN op
  let nnn := Word.fieldNNN op
  if f = 0x0 then decodeFamily0 op
  else if f = 0x1 then some (.jp nnn)
  else if f = 0x2 then some (.call nnn)
  else if f = 0x3 then some (.seImm x nn)
  else if f = 0x4 then some (.sneImm x nn)
  else if f = 0x5 then (if n = 0x0 then some (.seReg x y) else none)
  else if f = 0x6 then some (.ldImm x nn)
  else if f = 0x7 then some (.addImm x nn)
  else if f = 0x8 then decodeFamily8 op
  else if f = 0x9 then (if n = 0x0 then some (.sneReg x y) else none)
  else if f = 0xA then some (.ldIndex nnn)
  else if f = 0xB then some (.jpV0 nnn)
  else if f = 0xC then some (.rnd x nn)
  else if f = 0xD then some (.drw x y n)
  else if f = 0xE then decodeFamilyE op
  else decodeFamilyF op

/-- Why bytes are not an instruction. -/
inductive DecodeReject where
  /-- Fewer than the two bytes of a word (R80). -/
  | truncated
  /-- The word matches no row of R85 (R98). -/
  | unknown (op : Word)
  deriving DecidableEq, Repr

/-- Two bytes as an instruction word, the first one high (R56). -/
def wordOfBytes (hi lo : Byte) : Word := hi ++ lo

/-- The decoder on a list of bytes in address order: the instruction and the bytes after it, or the reason why not. -/
def decodeBytes : List Byte → Except DecodeReject (Instr × List Byte)
  | hi :: lo :: rest =>
    match decodeWord (wordOfBytes hi lo) with
    | some i => .ok (i, rest)
    | none => .error (.unknown (wordOfBytes hi lo))
  | _ => .error .truncated

/-- Formats `FIXED`, `XY` and `XYN` of R81: four nibbles, most significant first. -/
def formatNibbles (a b c d : BitVec 4) : Word := a ++ b ++ c ++ d

/-- Formats `XNN` and `X` of R81: family, `X`, low byte. -/
def formatXNN (f : BitVec 4) (x : Reg) (nn : Byte) : Word := f ++ x ++ nn

/-- Format `NNN` of R81: family, 12-bit field. -/
def formatNNN (f : BitVec 4) (nnn : BitVec 12) : Word := f ++ nnn

/-- The word of an instruction, from the patterns of R85. -/
def encode : Instr → Word
  | .cls => formatNibbles 0x0 0x0 0xE 0x0
  | .ret => formatNibbles 0x0 0x0 0xE 0xE
  | .jp nnn => formatNNN 0x1 nnn
  | .call nnn => formatNNN 0x2 nnn
  | .seImm x nn => formatXNN 0x3 x nn
  | .sneImm x nn => formatXNN 0x4 x nn
  | .seReg x y => formatNibbles 0x5 x y 0x0
  | .ldImm x nn => formatXNN 0x6 x nn
  | .addImm x nn => formatXNN 0x7 x nn
  | .ldReg x y => formatNibbles 0x8 x y 0x0
  | .orReg x y => formatNibbles 0x8 x y 0x1
  | .andReg x y => formatNibbles 0x8 x y 0x2
  | .xorReg x y => formatNibbles 0x8 x y 0x3
  | .addReg x y => formatNibbles 0x8 x y 0x4
  | .sub x y => formatNibbles 0x8 x y 0x5
  | .shr x y => formatNibbles 0x8 x y 0x6
  | .subn x y => formatNibbles 0x8 x y 0x7
  | .shl x y => formatNibbles 0x8 x y 0xE
  | .sneReg x y => formatNibbles 0x9 x y 0x0
  | .ldIndex nnn => formatNNN 0xA nnn
  | .jpV0 nnn => formatNNN 0xB nnn
  | .rnd x nn => formatXNN 0xC x nn
  | .drw x y n => formatNibbles 0xD x y n
  | .skp x => formatXNN 0xE x 0x9E
  | .sknp x => formatXNN 0xE x 0xA1
  | .ldFromDt x => formatXNN 0xF x 0x07
  | .ldKey x => formatXNN 0xF x 0x0A
  | .ldToDt x => formatXNN 0xF x 0x15
  | .ldToSt x => formatXNN 0xF x 0x18
  | .addIndex x => formatXNN 0xF x 0x1E
  | .ldFont x => formatXNN 0xF x 0x29
  | .ldBcd x => formatXNN 0xF x 0x33
  | .stRegs x => formatXNN 0xF x 0x55
  | .ldRegs x => formatXNN 0xF x 0x65

/-- The high byte of a word, stored at the lower address (R56). -/
def highByte (op : Word) : Byte := op.extractLsb' 8 8

/-- The low byte of a word, stored at the higher address (R56). -/
def lowByte (op : Word) : Byte := op.extractLsb' 0 8

/-- The bytes of an instruction in address order (R80). -/
def encodeBytes (i : Instr) : List Byte := [highByte (encode i), lowByte (encode i)]

/-- The instruction word of a table row given as a number: the low `nbits` bits of `w`, at most one 16-bit word (R80). -/
def tableWord (nbits w : Nat) : Word := BitVec.ofNat 16 (w % 2 ^ nbits)

/-- What the decoder reads from the table's word `w`: its two bytes, high byte first, through `decodeBytes`. -/
def decodeTableWord (nbits w : Nat) : Option Instr :=
  match decodeBytes [highByte (tableWord nbits w), lowByte (tableWord nbits w)] with
  | .ok (i, _) => some i
  | .error _ => none

end Sys2Proof
end

