-- ==== Sys2Proof/Machine/Flags.lean ====
section
/-! DEFINITION. Every flag the spec computes (R22, R162): each from the operand values before the instruction. -/

namespace Sys2Proof.Machine

/-- A flag as the byte `VF` holds: 1 or 0 (R22). -/
def flagByte (b : Bool) : Byte := if b then 1 else 0

/-- Carry out of bit 7: the true sum exceeds 255 (R156, R162). -/
def carryOut (a b : Byte) : Bool := decide (a.toNat + b.toNat > 255)

/-- No borrow: minuend ≥ subtrahend, equality included (R157, R159, R162).
UNVERIFIED: equality is the spec's own decision D14 (log 14; unsafe). -/
def noBorrow (minuend subtrahend : Byte) : Bool := decide (minuend.toNat ≥ subtrahend.toNat)

/-- The bit a right shift moves out: bit 0 (R158). -/
def shiftedOutRight (a : Byte) : Bool := a.getLsbD 0

/-- The bit a left shift moves out: bit 7 (R160). -/
def shiftedOutLeft (a : Byte) : Bool := a.getLsbD 7

/-- One pixel's share of the collision flag: a set sprite bit on a set pixel, which turns it to 0 (R193). -/
def collides (spriteBit pixel : Bool) : Bool := spriteBit && pixel

end Sys2Proof.Machine
end

