-- ==== Sys2Proof/Config.lean ====
section
/-! DEFINITION. What an implementation fixes (`FONT`, R7) and the free values (`tick`, `rnd`; R8, R9). -/

namespace Sys2Proof

/-- The sixteen glyphs of the default `FONT`, five bytes each (R33).
PRESUMED: the spec itself marks the bytes as general knowledge, not in its source (log 3; unsafe). -/
def Config.fontGlyphs : List (List Byte) :=
  [[0xF0, 0x90, 0x90, 0x90, 0xF0], [0x20, 0x60, 0x20, 0x20, 0x70],
   [0xF0, 0x10, 0xF0, 0x80, 0xF0], [0xF0, 0x10, 0xF0, 0x10, 0xF0]] ++
  [[0x90, 0x90, 0xF0, 0x10, 0x10], [0xF0, 0x80, 0xF0, 0x10, 0xF0],
   [0xF0, 0x80, 0xF0, 0x90, 0xF0], [0xF0, 0x10, 0x20, 0x40, 0x40]] ++
  [[0xF0, 0x90, 0xF0, 0x90, 0xF0], [0xF0, 0x90, 0xF0, 0x10, 0xF0],
   [0xF0, 0x90, 0xF0, 0x90, 0x90], [0xE0, 0x90, 0xE0, 0x90, 0xE0]] ++
  [[0xF0, 0x80, 0x80, 0x80, 0xF0], [0xE0, 0x90, 0x90, 0x90, 0xE0],
   [0xF0, 0x80, 0xF0, 0x80, 0xF0], [0xF0, 0x80, 0xF0, 0x80, 0x80]]

/-- Parameter `FONT` at its default value: 80 bytes (R7, R33, log 3). A claim about glyph bytes names the
font it assumes; `State.resetWith` takes any font. -/
def Config.font : Vector Byte 80 := ⟨Config.fontGlyphs.flatten.toArray, rfl⟩

/-- The free `tick` input of step number `n`: under no law (R9, D3, log 1). -/
opaque Config.freeTick : Nat → Bool

/-- The free `rnd` input of step number `n`: under no law (R8, D4, log 1). -/
opaque Config.freeRnd : Nat → Byte

end Sys2Proof
end

