-- ==== Sys2Proof/Machine/State.lean ====
section
/-! DEFINITION. The state of the block (spec R20 to R35), its conditions (R220) and the reset state (R32, R260). -/

namespace Sys2Proof.Machine

/-- The written part of memory in canonical form (`Memory.wf`): addresses strictly rising, no entry equal to what an
unlisted address reads as (log 32). -/
abbrev Memory := List Host.Cell

/-- The 64×32 grid of 1-bit pixels (R27), kept as 32 rows of 64 columns; the storage order is not observable (log 34). -/
abbrev Framebuffer := Vector (Vector Bool 64) 32

/-- The conditions of R220. Codes 1 to 6 are events of a step; `programTooLarge` is a result of `load_program` only. -/
inductive Condition where
  /-- Raised by the decode of a word that matches no row (R222). -/
  | unknownOpcode (op : Word)
  /-- Raised by `2NNN` when `sp = 16` (R223). -/
  | stackOverflow
  /-- Raised by `00EE` when `sp = 0` (R224). -/
  | stackUnderflow
  /-- Raised by `DXYN` when the sprite's extent leaves the grid (R225). -/
  | drawOutOfBounds (x0 y0 : Byte) (n : BitVec 4)
  /-- Raised by the fetch, `DXYN`, `FX33`, `FX55`, `FX65`; `a` is the highest byte address the access needs, a
  mathematical integer (R226, R54). -/
  | memoryOutOfBounds (a : Nat)
  /-- Raised by `EX9E` and `EXA1` when `V[X] > 15` (R227). -/
  | keyIndexOutOfRange (v : Byte)
  /-- The result of `load_program` on more than 3584 bytes (R228). -/
  | programTooLarge
  deriving DecidableEq, Repr

/-- The code of R220; 0 is `None`. -/
def Condition.code : Condition → Nat
  | .unknownOpcode _ => 1
  | .stackOverflow => 2
  | .stackUnderflow => 3
  | .drawOutOfBounds _ _ _ => 4
  | .memoryOutOfBounds _ => 5
  | .keyIndexOutOfRange _ => 6
  | .programTooLarge => 7

/-- The two inputs of one step (R8, R9, R110). -/
structure StepInput where
  tick : Bool
  rnd  : Byte
  deriving DecidableEq, Repr

/-- Everything the spec gives the machine (R20), and three fields of the model's own: `event`, `inputs`, `stepIndex`
(R31, R34: inputs and the event are no state of the block). -/
structure State where
  /-- `mem`, 4096 bytes (R26). -/
  mem : Memory
  /-- `V[0]` to `V[15]`; `V[15]` is `VF` (R21, R22). -/
  V : Vector Byte 16
  /-- The index register (R23). -/
  I : Word
  /-- The program counter (R24). -/
  pc : Word
  /-- The sixteen return addresses (R25). -/
  stack : Vector Word 16
  /-- How many stack entries are in use, 0 to 16 (R25). -/
  sp : Fin 17
  /-- The framebuffer (R27). -/
  fb : Framebuffer
  /-- The delay timer (R28). -/
  DT : Byte
  /-- The sound timer (R28). -/
  ST : Byte
  /-- The sixteen key latches (R29). -/
  key : Vector Bool 16
  /-- The redraw flag (R30). -/
  redraw : Bool
  /-- The model's own: the `event` output of the last step (R221; DESIGN CHOICE, log 2). -/
  event : Option Condition
  /-- The model's own: the inputs the driver has fixed for the coming steps, the next one first (DESIGN CHOICE, log 1). -/
  inputs : List StepInput
  /-- The model's own: the number of the coming step, the argument of the free values (DESIGN CHOICE, log 1). -/
  stepIndex : Nat
  deriving DecidableEq, Repr

/-- Nothing stops this machine with a fault: "A step always completes and returns" (R119). The spec's conditions are
events of steps that complete (`State.event`, R221, log 2), so the type has no constructor. -/
inductive Fault : Type
  deriving DecidableEq, Repr

/-- Why the model gives no meaning. -/
inductive Refusal where
  /-- Raised by an arm of `exec` for an instruction that has no meaning yet; safe. No arm raises it now. -/
  | notModelled (mnemonic : String)
  /-- Raised by the interface operation `set_key` with a code above 15, a call "outside the interface" that "a model must
  refuse" (R244, D28, log 25); no step raises it. Safe. -/
  | setKeyOutsideInterface (code : Nat)
  deriving DecidableEq, Repr

/-- What an instruction, a step or an interface operation answers. -/
abbrev Result := Host.Outcome State Fault Refusal

/-- The machine right after `reset()` or construction (R32, R260); memory lists nothing, and an unlisted address reads as
its reset content (`Memory.unlisted`). The model's own fields `event`, `inputs`, `stepIndex` are DESIGN CHOICES (log 1, 2). -/
def State.reset : State where
  mem := []
  V := Vector.replicate 16 0
  I := 0
  pc := 0x200
  stack := Vector.replicate 16 0
  sp := 0
  fb := Vector.replicate 32 (Vector.replicate 64 false)
  DT := 0
  ST := 0
  key := Vector.replicate 16 false
  redraw := false
  event := none
  inputs := []
  stepIndex := 0

end Sys2Proof.Machine
end

