-- ==== Sys2Proof/Machine/Ops.lean ====
section
/-! DEFINITION. The named operations over memory, registers, stack and framebuffer, and the one operation that raises a
condition (spec R14, R15, R25, R27, R54, R113, R221). -/

namespace Sys2Proof.Machine

/-! ## Memory -/

/-- What an address that no entry lists reads as: its reset content, `FONT` at 0x000 to 0x04F and 0 elsewhere (R26, R32).
PRESUMED: the font bytes (log 3). -/
def Memory.unlisted (a : Nat) : Byte := Config.font.toList.getD a 0

/-- `mem[a]` (R26). -/
def Memory.read : Memory → Nat → Byte
  | [], a => Memory.unlisted a
  | (k, b) :: rest, a => if k = a then b else Memory.read rest a

/-- Lists `a` with byte `b`, in address order. -/
def Memory.put : Memory → Nat → Byte → Memory
  | [], a, b => [(a, b)]
  | (k, c) :: rest, a, b =>
    if a < k then (a, b) :: (k, c) :: rest
    else if a = k then (a, b) :: rest
    else (k, c) :: Memory.put rest a b

/-- Lists `a` no more. -/
def Memory.erase : Memory → Nat → Memory
  | [], _ => []
  | (k, c) :: rest, a => if k = a then rest else (k, c) :: Memory.erase rest a

/-- `mem[a] <- b`, keeping the canonical form. -/
def Memory.write (m : Memory) (a : Nat) (b : Byte) : Memory :=
  if b = Memory.unlisted a then Memory.erase m a else Memory.put m a b

/-- The canonical form: addresses inside 0x000 to 0xFFF and strictly rising, no entry equal to what the address reads as
when unlisted. -/
def Memory.wf : Memory → Bool
  | [] => true
  | (k, b) :: rest =>
    decide (k < 4096) && b != Memory.unlisted k && rest.all (fun c => decide (k < c.1)) && Memory.wf rest

/-- `n` bytes from `a`, in ascending address order: `MemRead` after its bounds check (R14). -/
def Memory.readBytes (m : Memory) (a : Nat) : Nat → List Byte
  | 0 => []
  | n + 1 => Memory.read m a :: Memory.readBytes m (a + 1) n

/-- The bytes to `a`, `a + 1`, …, in ascending address order: `MemWrite` after its bounds check (R14). -/
def Memory.writeBytes (m : Memory) (a : Nat) : List Byte → Memory
  | [] => m
  | b :: rest => Memory.writeBytes (Memory.write m a b) (a + 1) rest

/-- The bounds check of R14 and R54 on an access of `n` bytes at `a`: the condition it raises, if any. Addresses are
mathematical integers, never wrapped. UNVERIFIED: the spec's own decision D8 (log 9; safe). -/
def accessBound (a n : Nat) : Option Condition :=
  if 1 ≤ n ∧ 0xFFF < a + n - 1 then some (.memoryOutOfBounds (a + n - 1)) else none

/-! ## Registers and the other cells -/

/-- `V[x]` (R13, R21). -/
def State.reg (s : State) (x : Reg) : Byte := s.V[x.toNat]'x.isLt

/-- `V[x] <- b` (R13, R21). -/
def State.setReg (s : State) (x : Reg) (b : Byte) : State := { s with V := s.V.set x.toNat b x.isLt }

/-- `pc <- t` (R13). -/
def State.setPc (s : State) (t : Word) : State := { s with pc := t }

/-- `I <- w` (R23). -/
def State.setI (s : State) (w : Word) : State := { s with I := w }

/-- Replaces memory. -/
def State.setMem (s : State) (m : Memory) : State := { s with mem := m }

/-- `DT <- b` (R28). -/
def State.setDT (s : State) (b : Byte) : State := { s with DT := b }

/-- `ST <- b` (R28). -/
def State.setST (s : State) (b : Byte) : State := { s with ST := b }

/-- Replaces the framebuffer. -/
def State.setFb (s : State) (f : Framebuffer) : State := { s with fb := f }

/-- Writes the redraw flag (R30). -/
def State.setRedraw (s : State) (b : Bool) : State := { s with redraw := b }

/-- Writes the event output (R221). -/
def State.setEvent (s : State) (e : Option Condition) : State := { s with event := e }

/-- `V[k], V[k+1], … <- bytes`, as far as there are registers (R175). -/
def loadRegs (v : Vector Byte 16) (k : Nat) : List Byte → Vector Byte 16
  | [] => v
  | b :: rest => loadRegs (v.setIfInBounds k b) (k + 1) rest

/-- `V[0], …, V[x]` in ascending register order (R174). -/
def State.firstRegs (s : State) (x : Reg) : List Byte := s.V.toList.take (x.toNat + 1)

/-! ## The call stack -/

/-- `stack[sp] <- v; sp <- sp + 1`, or `none` when `sp = 16` (R25). -/
def State.push (s : State) (v : Word) : Option State :=
  if h : s.sp.val < 16 then some { s with stack := s.stack.set s.sp.val v h, sp := ⟨s.sp.val + 1, by omega⟩ } else none

/-- `sp <- sp − 1; v <- stack[sp]`, or `none` when `sp = 0`; the entry popped keeps its value (R25).
UNVERIFIED: that it keeps it is the spec's own decision D17 (log 16; not observable). -/
def State.pop (s : State) : Option (Word × State) :=
  if h : 0 < s.sp.val then
    some (s.stack[s.sp.val - 1]'(by omega), { s with sp := ⟨s.sp.val - 1, by omega⟩ })
  else none

/-! ## The framebuffer -/

/-- `fb[x][y]`, column `x`, row `y`; false outside the grid (R13, R27). -/
def pixel (f : Framebuffer) (x y : Nat) : Bool :=
  if h : x < 64 ∧ y < 32 then (f[y]'h.2)[x]'h.1 else false

/-- `fb[x][y] <- fb[x][y] XOR 1`; nothing outside the grid, where the draw's bounds check lets no bit fall (R191, R194). -/
def flipPixel (f : Framebuffer) (x y : Nat) : Framebuffer :=
  if h : x < 64 ∧ y < 32 then f.set y ((f[y]'h.2).set x (!(f[y]'h.2)[x]'h.1) h.1) h.2 else f

/-- All pixels 0 (R190). -/
def blankFb : Framebuffer := Vector.replicate 32 (Vector.replicate 64 false)

/-! ## Ends of an instruction -/

/-- `pc <- pc + 2` (R113, class sequential). -/
def sequential (s : State) : Result := .next (s.setPc (s.pc + 2))

/-- `pc <- pc + 4` if the condition holds, else `pc <- pc + 2` (R113, class skip). -/
def skipIf (c : Bool) (s : State) : Result := .next (s.setPc (if c then s.pc + 4 else s.pc + 2))

/-- `pc <- t` (R113, classes absolute and computed). -/
def jumpTo (t : Word) (s : State) : Result := .next (s.setPc t)

/-- Raising a condition: "nothing the instruction would have written is written, `pc` is not changed", and the step's
event is the condition (R15, R116, R221). It transfers control nowhere and there is nothing to return from (R230, R231).
Given the state before the instruction. UNVERIFIED: the spec's own decision D5 (log 8; unsafe). -/
def raise (c : Condition) (s : State) : Result := .next (s.setEvent (some c))

/-! ## The inputs of a step -/

/-- The `tick` input of the coming step (R9): the one the driver has fixed, else a free value (log 1). -/
def State.tickIn (s : State) : Bool :=
  match s.inputs with
  | [] => Config.freeTick s.stepIndex
  | p :: _ => p.tick

/-- The `rnd` input of the coming step (R8): the one the driver has fixed, else a free value (log 1). -/
def State.rndIn (s : State) : Byte :=
  match s.inputs with
  | [] => Config.freeRnd s.stepIndex
  | p :: _ => p.rnd

/-- A step has used its inputs. -/
def State.consumeInput (s : State) : State := { s with inputs := s.inputs.tail, stepIndex := s.stepIndex + 1 }

/-! ## Fetch -/

/-- The fetch of R111: the word `mem[pc] ++ mem[pc+1]` (R56), or the condition when `pc > 0xFFE`. `pc` may be odd (R58). -/
def fetch (s : State) : Except Condition Word :=
  if 0xFFE < s.pc.toNat then .error (.memoryOutOfBounds (s.pc.toNat + 1))
  else .ok (Memory.read s.mem s.pc.toNat ++ Memory.read s.mem (s.pc.toNat + 1))

end Sys2Proof.Machine
end

