-- ==== Sys2Proof/Machine/Operands.lean ====
section
/-! DEFINITION. The operand forms: immediates, the address forms through `I` and `pc`, the key operand, the decimal digits
and the sprite geometry (spec R82, R83, R173, R176, R192, R194, R203). -/

namespace Sys2Proof.Machine

/-- `zext_16(NNN)` (R83). -/
def addressImm (nnn : BitVec 12) : Word := nnn.setWidth 16

/-- `zext_16(v)` of a register value (R83, R171). -/
def zext16 (v : Byte) : Word := v.setWidth 16

/-- The target of `BNNN`: `(zext_16(V[0]) + zext_16(NNN)) mod 65536` (R137). -/
def indexedTarget (v0 : Byte) (nnn : BitVec 12) : Word := zext16 v0 + addressImm nnn

/-- The address of data byte 0 of an access, `I` as an integer; byte `k` is at `dataAddress s + k` (R176). -/
def dataAddress (s : State) : Nat := s.I.toNat

/-- How many bytes `FX55` and `FX65` move: `X + 1` (R174, R175). -/
def blockLength (x : Reg) : Nat := x.toNat + 1

/-- The address of the font glyph of a digit: the whole byte times 5 (R172).
UNVERIFIED: not reduced to a nibble, the spec's own decision D27 (log 24; unsafe). -/
def glyphAddress (v : Byte) : Word := zext16 v * 5

/-- Hundreds, tens, ones (R173). -/
def bcdDigits (v : Byte) : List Byte :=
  [BitVec.ofNat 8 (v.toNat / 100), BitVec.ofNat 8 (v.toNat / 10 % 10), BitVec.ofNat 8 (v.toNat % 10)]

/-- `key[v]` for a key code, or `none` when `v > 15` (R200, R201).
UNVERIFIED: the value is not masked, the spec's own decision D10 (log 11; safe). -/
def keyLatch (s : State) (v : Byte) : Option Bool := s.key[v.toNat]?

/-- Every latch is 0 (R203, R204). -/
def State.noKeyDown (s : State) : Bool := s.key.toList.all (fun k => !k)

/-- Parameter `KEY_PICK`: the lowest code whose latch is set (R10, R203).
UNVERIFIED: the spec's own decision D11 (log 4; unsafe). -/
def keyPick (s : State) : Option Nat := s.key.toList.findIdx? (fun k => k)

/-- The test of R194 on the 8-column by `n`-row extent at (`x0`, `y0`).
UNVERIFIED: the spec's own decision D9 (log 10; safe). -/
def extentOutOfBounds (x0 y0 : Byte) (n : BitVec 4) : Bool :=
  decide (1 ≤ n.toNat ∧ (56 < x0.toNat ∨ 32 < y0.toNat + n.toNat))

/-- A draw in progress: the framebuffer and the collision so far (R191). -/
structure Drawing where
  fb : Framebuffer
  collision : Bool
  deriving DecidableEq, Repr

/-- One sprite bit at (`x`, `y`): a 1 flips the pixel and collides with a 1, a 0 touches nothing (R191, R193). -/
def plotBit (d : Drawing) (x y : Nat) (bit : Bool) : Drawing :=
  if bit then ⟨flipPixel d.fb x y, d.collision || collides bit (pixel d.fb x y)⟩ else d

/-- Sprite column `c` of row byte `b` is bit `7 − c` (R192). PRESUMED: the spec marks the bit order as general knowledge
(D21, log 19; unsafe). -/
def spriteBit (b : Byte) (c : Nat) : Bool := b.getLsbD (7 - c)

/-- One sprite row: columns 0 to 7 in order (R191). -/
def drawRow (x0 y : Nat) (b : Byte) (d : Drawing) : Drawing :=
  (List.range 8).foldl (fun d c => plotBit d (x0 + c) y (spriteBit b c)) d

/-- The sprite's rows from framebuffer row `y` downward in index (R191, R192). -/
def drawRows (x0 y : Nat) : List Byte → Drawing → Drawing
  | [], d => d
  | b :: rest, d => drawRows x0 (y + 1) rest (drawRow x0 y b d)

end Sys2Proof.Machine
end

