-- ==== Sys2Proof/Machine/ControlFlow.lean ====
section
/-! DEFINITION. Control-flow instructions (spec R130 to R138). There are no delay slots: the word after a taken transfer
is not executed. -/

namespace Sys2Proof.Machine

/-- `00EE` RET (R130). -/
def execRet (s : State) : Result :=
  match s.pop with
  | none => raise .stackUnderflow s
  | some (v, t) => jumpTo v t

/-- `1NNN` JP (R131). -/
def execJp (nnn : BitVec 12) (s : State) : Result := jumpTo (addressImm nnn) s

/-- `2NNN` CALL: the return address `pc + 2` is pushed (R132, C3). -/
def execCall (nnn : BitVec 12) (s : State) : Result :=
  match s.push (s.pc + 2) with
  | none => raise .stackOverflow s
  | some t => jumpTo (addressImm nnn) t

/-- `3XNN` SE_IMM (R133). -/
def execSeImm (x : Reg) (nn : Byte) (s : State) : Result := skipIf (s.reg x == nn) s

/-- `4XNN` SNE_IMM (R134). -/
def execSneImm (x : Reg) (nn : Byte) (s : State) : Result := skipIf (s.reg x != nn) s

/-- `5XY0` SE_REG (R135). -/
def execSeReg (x y : Reg) (s : State) : Result := skipIf (s.reg x == s.reg y) s

/-- `9XY0` SNE_REG (R136). -/
def execSneReg (x y : Reg) (s : State) : Result := skipIf (s.reg x != s.reg y) s

/-- `BNNN` JP_V0: the offset register is always `V[0]` (R137). -/
def execJpV0 (nnn : BitVec 12) (s : State) : Result := jumpTo (indexedTarget (s.reg 0) nnn) s

end Sys2Proof.Machine
end

