-- ==== Sys2Proof/Machine/Display.lean ====
section
/-! DEFINITION. Display instructions, sprite drawing and collision detection (spec R190 to R194). -/

namespace Sys2Proof.Machine

/-- `00E0` CLS: all pixels 0; neither `V[15]` nor the redraw flag is written (R190).
UNVERIFIED: that `redraw` is not set is the spec's own decision D18 (log 17; unsafe). -/
def execCls (s : State) : Result := sequential (s.setFb blankFb)

/-- `DXYN` DRW (R191): the memory bound first, then the extent (R229); the anchor is read before `V[15]` is written; `N = 0`
draws nothing, clears `VF` and sets `redraw` (D31, log 27). -/
def execDrw (x y : Reg) (n : BitVec 4) (s : State) : Result :=
  match accessBound (dataAddress s) n.toNat with
  | some c => raise c s
  | none =>
    if extentOutOfBounds (s.reg x) (s.reg y) n then raise (.drawOutOfBounds (s.reg x) (s.reg y) n) s
    else
      let rows := Memory.readBytes s.mem (dataAddress s) n.toNat
      let d := drawRows (s.reg x).toNat (s.reg y).toNat rows ⟨s.fb, false⟩
      sequential (((s.setFb d.fb).setReg Reg.vf (flagByte d.collision)).setRedraw true)

end Sys2Proof.Machine
end

