-- ==== Sys2Proof/Machine/IndexMemory.lean ====
section
/-! DEFINITION. Index-register and memory-transfer instructions (spec R170 to R176). -/

namespace Sys2Proof.Machine

/-- `ANNN` LD_INDEX (R170). -/
def execLdIndex (nnn : BitVec 12) (s : State) : Result := sequential (s.setI (addressImm nnn))

/-- `FX1E` ADD_INDEX: modulo 65536, no flag (R171, R23). -/
def execAddIndex (x : Reg) (s : State) : Result := sequential (s.setI (s.I + zext16 (s.reg x)))

/-- `FX29` LD_FONT (R172). -/
def execLdFont (x : Reg) (s : State) : Result := sequential (s.setI (glyphAddress (s.reg x)))

/-- `FX33` LD_BCD (R173); `I` is not changed. -/
def execLdBcd (x : Reg) (s : State) : Result :=
  match accessBound (dataAddress s) 3 with
  | some c => raise c s
  | none => sequential (s.setMem (Memory.writeBytes s.mem (dataAddress s) (bcdDigits (s.reg x))))

/-- `FX55` ST_REGS (R174): no partial transfer (D25), then `I + X + 1`. -/
def execStRegs (x : Reg) (s : State) : Result :=
  match accessBound (dataAddress s) (blockLength x) with
  | some c => raise c s
  | none =>
    sequential ((s.setMem (Memory.writeBytes s.mem (dataAddress s) (s.firstRegs x))).setI
      (s.I + BitVec.ofNat 16 (blockLength x)))

/-- `FX65` LD_REGS (R175): no partial transfer (D25), then `I + X + 1`. -/
def execLdRegs (x : Reg) (s : State) : Result :=
  match accessBound (dataAddress s) (blockLength x) with
  | some c => raise c s
  | none =>
    sequential { s with
      V := loadRegs s.V 0 (Memory.readBytes s.mem (dataAddress s) (blockLength x))
      I := s.I + BitVec.ofNat 16 (blockLength x) }

end Sys2Proof.Machine
end

