-- ==== Sys2Proof/Machine/KeysTimers.lean ====
section
/-! DEFINITION. Key and timer instructions (spec R200 to R206) and the countdown of a timer (R114, R235). -/

namespace Sys2Proof.Machine

/-- `EX9E` SKP (R200). -/
def execSkp (x : Reg) (s : State) : Result :=
  match keyLatch s (s.reg x) with
  | none => raise (.keyIndexOutOfRange (s.reg x)) s
  | some pressed => skipIf pressed s

/-- `EXA1` SKNP (R201). -/
def execSknp (x : Reg) (s : State) : Result :=
  match keyLatch s (s.reg x) with
  | none => raise (.keyIndexOutOfRange (s.reg x)) s
  | some pressed => skipIf (!pressed) s

/-- `FX07` LD_FROM_DT: the value before the timer phase of the same step (R202). -/
def execLdFromDt (x : Reg) (s : State) : Result := sequential (s.setReg x s.DT)

/-- `FX0A` LD_KEY: with no latch set no state changes (R203, R204); else the picked code and `pc + 2`. No latch is
cleared. -/
def execLdKey (x : Reg) (s : State) : Result :=
  match keyPick s with
  | none => .next s
  | some k => sequential (s.setReg x (BitVec.ofNat 8 k))

/-- `FX15` LD_TO_DT (R205). -/
def execLdToDt (x : Reg) (s : State) : Result := sequential (s.setDT (s.reg x))

/-- `FX18` LD_TO_ST (R206). -/
def execLdToSt (x : Reg) (s : State) : Result := sequential (s.setST (s.reg x))

/-- One timer in the timer phase: down by 1 when `tick` is 1, stopping at 0 (R114, R235). -/
def decay (tick : Bool) (v : Byte) : Byte := if v = 0 then 0 else if tick then v - 1 else v

/-- The timer phase (R114): both timers see the same `tick`, neither affects the other (R235). -/
def timerPhase (tick : Bool) (s : State) : State := { s with DT := decay tick s.DT, ST := decay tick s.ST }

end Sys2Proof.Machine
end

