-- ==== Sys2Proof/Machine/LoadAlu.lean ====
section
/-! DEFINITION. Register load and ALU instructions (spec R150 to R163): 8-bit wraparound, flags from the old operands. -/

namespace Sys2Proof.Machine

/-- The result to `V[x]`, then the flag to `V[15]`, then `pc + 2`; both computed before (R163). With `x = 15` the flag
stays. UNVERIFIED: the spec's own decision D13 (log 13; unsafe). -/
def writeFlagged (x : Reg) (result : Byte) (flag : Bool) (s : State) : Result :=
  sequential ((s.setReg x result).setReg Reg.vf (flagByte flag))

/-- The result to `V[x]`, no flag, then `pc + 2` (R150 to R155, R161). -/
def writePlain (x : Reg) (result : Byte) (s : State) : Result := sequential (s.setReg x result)

/-- `6XNN` LD_IMM (R150). -/
def execLdImm (x : Reg) (nn : Byte) (s : State) : Result := writePlain x nn s

/-- `7XNN` ADD_IMM (R151). -/
def execAddImm (x : Reg) (nn : Byte) (s : State) : Result := writePlain x (s.reg x + nn) s

/-- `8XY0` LD_REG (R152). -/
def execLdReg (x y : Reg) (s : State) : Result := writePlain x (s.reg y) s

/-- `8XY1` OR; `VF` is left alone (R153, D26). -/
def execOr (x y : Reg) (s : State) : Result := writePlain x (s.reg x ||| s.reg y) s

/-- `8XY2` AND; `VF` is left alone (R154, D26). -/
def execAnd (x y : Reg) (s : State) : Result := writePlain x (s.reg x &&& s.reg y) s

/-- `8XY3` XOR; `VF` is left alone (R155, D26). -/
def execXor (x y : Reg) (s : State) : Result := writePlain x (s.reg x ^^^ s.reg y) s

/-- `8XY4` ADD_REG (R156). -/
def execAddReg (x y : Reg) (s : State) : Result :=
  writeFlagged x (s.reg x + s.reg y) (carryOut (s.reg x) (s.reg y)) s

/-- `8XY5` SUB (R157). -/
def execSub (x y : Reg) (s : State) : Result :=
  writeFlagged x (s.reg x - s.reg y) (noBorrow (s.reg x) (s.reg y)) s

/-- `8XY6` SHR: `V[X]` in place, `Y` is not used (R158). UNVERIFIED: the spec's own decision D12 (log 12; unsafe). -/
def execShr (x _y : Reg) (s : State) : Result :=
  writeFlagged x (s.reg x >>> 1) (shiftedOutRight (s.reg x)) s

/-- `8XY7` SUBN: `V[Y] − V[X]` (R159). PRESUMED: the spec marks the operand order as general knowledge (D30, log 26;
unsafe). -/
def execSubn (x y : Reg) (s : State) : Result :=
  writeFlagged x (s.reg y - s.reg x) (noBorrow (s.reg y) (s.reg x)) s

/-- `8XYE` SHL: `V[X]` in place, `Y` is not used (R160). UNVERIFIED: the spec's own decision D12 (log 12; unsafe). -/
def execShl (x _y : Reg) (s : State) : Result :=
  writeFlagged x (s.reg x <<< 1) (shiftedOutLeft (s.reg x)) s

/-- `CXNN` RND: `rnd` is the input of this step, under no law (R161, R8). -/
def execRnd (x : Reg) (nn : Byte) (s : State) : Result := writePlain x (nn &&& s.rndIn) s

end Sys2Proof.Machine
end

