-- ==== Sys2Proof/Machine/Cycle.lean ====
section
/-! DEFINITION. The step cycle (spec R110 to R116): instruction phase, then timer phase. -/

namespace Sys2Proof.Machine

/-- Fetch, decode, execute (R111 to R113), the wait step apart. The order of the tests is R229's. -/
def instructionPhase (s : State) : Result :=
  match fetch s with
  | .error c => raise c s
  | .ok op =>
    match decodeWord op with
    | none => raise (.unknownOpcode op) s
    | some i => exec i s

/-- A wait step: the word fetched is `FX0A` and every key latch is 0 (R115). -/
def isWaitStep (s : State) : Bool :=
  match fetch s with
  | .error _ => false
  | .ok op =>
    match decodeWord op with
    | some (.ldKey _) => s.noKeyDown
    | _ => false

/-- What follows the instruction phase: the timer phase, and the step's inputs are used up (R114). -/
def finishStep (tick : Bool) : Result → Result
  | .next t => .next (timerPhase tick t).consumeInput
  | .fault r => .fault r
  | .refused r => .refused r

/-- One step (R110): `event` starts as `None`; a wait step changes nothing of the block, the timers included (R115); every
other step runs the instruction phase and then the timer phase, in a step that raised a condition too (R116).
UNVERIFIED: the order of the phases is the spec's own decision D2 (log 5; unsafe), the frozen timers of a wait step its
reading C6 (log 7; unsafe). -/
def cycle (s : State) : Result :=
  let s0 := s.setEvent none
  if isWaitStep s0 then .next s0.consumeInput
  else finishStep s.tickIn (instructionPhase s0)

/-- An instruction word stored at address `a`, high byte first (R56, R80). -/
def storeWord (m : Memory) (a : Nat) (op : Word) : Memory :=
  Memory.writeBytes m a [highByte op, lowByte op]

/-- Where the next fetch can take its word: `pc` if it is fetchable (R111), else the entry point 0x200. -/
def fetchablePc (s : State) : Word := if 0xFFE < s.pc.toNat then 0x200 else s.pc

/-- The state with word `op` where the next step fetches; `pc` changes only where nothing could be fetched. -/
def placeWord (s : State) (op : Word) : State :=
  { s with pc := fetchablePc s, mem := storeWord s.mem (fetchablePc s).toNat op }

end Sys2Proof.Machine
end

