-- ==== Sys2Proof/Machine/Step.lean ====
section
/-! DEFINITION. One step of the machine, and the state in which the next step runs a given word. -/

namespace Sys2Proof.Machine

/-- One call of `step()` (spec R110, R243). Its inputs are `State.tickIn` and `State.rndIn`, its output is `State.event`. -/
def step (s : State) : Host.Outcome State Fault Refusal := cycle s

/-- `s` with the instruction whose table bits are the low `nbits` bits of `w` stored where `step` fetches next. It stands
for a program loaded from outside (R262, log 31). -/
def State.withFetchWord (s : State) (nbits w : Nat) : State := placeWord s (tableWord nbits w)

end Sys2Proof.Machine
end

