-- ==== Sys2Proof/Machine/Interface.lean ====
section
/-! DEFINITION. The host interface: the seven operations (spec R240 to R248), each atomic and between steps. -/

namespace Sys2Proof.Machine

/-- `reset()` with a font as its argument (R7, R260): every piece of state of R20 gets its reset value. The model's own
inputs and step number go on, so that the free values after a reset are fresh ones (log 33). -/
def State.resetWith (s : State) (font : Vector Byte 80) : State :=
  { State.reset with
    mem := Memory.writeBytes [] 0 font.toList
    inputs := s.inputs
    stepIndex := s.stepIndex }

/-- `load_program(bytes)` (R242): the copy and nothing else, or `ProgramTooLarge` and no change (R228).
UNVERIFIED: that it does nothing else is the spec's own decision D32 (log 28; unsafe). -/
def loadProgram (bytes : List Byte) (s : State) : Except Condition State :=
  if programWellFormed bytes then .ok (s.setMem (Memory.writeBytes s.mem 0x200 bytes)) else .error .programTooLarge

/-- `set_key(code, pressed)` (R244); a code above 15 is outside the interface and refused (D28, log 25). -/
def setKey (code : Nat) (pressed : Bool) (s : State) : Result :=
  if h : code < 16 then .next { s with key := s.key.set code pressed h }
  else .refused (.setKeyOutsideInterface code)

/-- `step()` with its inputs made explicit: `Step(tick, rnd)` of R110. -/
def stepWith (tick : Bool) (rnd : Byte) (s : State) : Result :=
  step { s with inputs := ⟨tick, rnd⟩ :: s.inputs }

/-- `tone_active()`: `ST > 0` (R246). -/
def toneActive (s : State) : Bool := decide (0 < s.ST.toNat)

/-- `take_redraw_flag()`: the flag, and the state with the flag cleared (R247). -/
def takeRedrawFlag (s : State) : Bool × State := (s.redraw, s.setRedraw false)

/-- A call of one of the seven operations (R240). -/
inductive HostCall where
  | reset (font : Vector Byte 80)
  | loadProgram (bytes : List Byte)
  | step (tick : Bool) (rnd : Byte)
  | setKey (code : Nat) (pressed : Bool)
  | framebuffer
  | takeRedrawFlag
  | toneActive
  deriving DecidableEq, Repr

/-- What a call returns to the host. -/
inductive HostReply where
  /-- `reset` and `set_key` return nothing. -/
  | done
  /-- The result of `load_program`: `none` is ok. -/
  | load (result : Option Condition)
  /-- The event of a step (R221). -/
  | event (e : Option Condition)
  /-- The read-only snapshot of `fb` (R245). -/
  | grid (fb : Framebuffer)
  /-- A Boolean answer (R246, R247). -/
  | bool (b : Bool)
  deriving DecidableEq, Repr

/-- A finished call: what was returned, and the state after it. -/
structure HostAnswer where
  reply : HostReply
  state : State
  deriving DecidableEq, Repr

/-- One interface operation (R240 to R248). -/
def perform (c : HostCall) (s : State) : Host.Outcome HostAnswer Fault Refusal :=
  match c with
  | .reset font => .next ⟨.done, s.resetWith font⟩
  | .loadProgram bytes =>
    match Sys2Proof.Machine.loadProgram bytes s with
    | .ok t => .next ⟨.load none, t⟩
    | .error e => .next ⟨.load (some e), s⟩
  | .step tick rnd =>
    match stepWith tick rnd s with
    | .next t => .next ⟨.event t.event, t⟩
    | .fault r => .fault r
    | .refused r => .refused r
  | .setKey code pressed =>
    match Sys2Proof.Machine.setKey code pressed s with
    | .next t => .next ⟨.done, t⟩
    | .fault r => .fault r
    | .refused r => .refused r
  | .framebuffer => .next ⟨.grid s.fb, s⟩
  | .takeRedrawFlag => .next ⟨.bool (Sys2Proof.Machine.takeRedrawFlag s).1, (Sys2Proof.Machine.takeRedrawFlag s).2⟩
  | .toneActive => .next ⟨.bool (Sys2Proof.Machine.toneActive s), s⟩

/-- A sequence of interface operations, one after another (R248), stopping at the first that is refused. -/
def performAll : List HostCall → State → Result
  | [], s => .next s
  | c :: rest, s =>
    match perform c s with
    | .next a => performAll rest a.state
    | .fault r => .fault r
    | .refused r => .refused r

end Sys2Proof.Machine
end

