-- ==== Sys2Proof/Safety.lean ====
section
/-! DEFINITION. What counts as a safe run: steps that complete and report no condition (spec R221, R232). A state whose
next step reports a condition is faulted and never final. -/

namespace Sys2Proof.Machine

/-- The next step completes and its event is `e`. -/
def StepReports (s : State) (e : Option Condition) : Prop := ∃ t, step s = .next t ∧ t.event = e

/-- The next step reports condition `c`: the state is stalled, "faulted and never final" (R232). -/
def Stalled (s : State) (c : Condition) : Prop := StepReports s (some c)

/-- `n` steps, none of which reports a condition. -/
def SafeSteps : Nat → State → Prop
  | 0, _ => True
  | n + 1, s => ∃ t, step s = .next t ∧ t.event = none ∧ SafeSteps n t

/-- `n` steps one after another. -/
def runSteps : Nat → State → Result
  | 0, s => .next s
  | n + 1, s =>
    match step s with
    | .next t => runSteps n t
    | .fault r => .fault r
    | .refused r => .refused r

/-- A conventional end of a run: `pc` holds the address of a `1NNN` whose `NNN = pc`. The spec says a model that needs an
end must supply its own and that the hardware does not know it (R120). -/
def AtSelfJump (s : State) : Prop := ∃ nnn, fetch s = .ok (encode (.jp nnn)) ∧ addressImm nnn = s.pc

/-- The invariant on memory: the canonical form (log 32). -/
def State.memOk (s : State) : Prop := Memory.wf s.mem = true

/-- The reach of `pc`: at most 0x10FE, and every stack entry at most 0x1000 (R24, R130). -/
def State.pcOk (s : State) : Prop := s.pc.toNat ≤ 0x10FE ∧ ∀ (k : Nat) (h : k < 16), (s.stack[k]'h).toNat ≤ 0x1000

end Sys2Proof.Machine
end

