-- ==== Sys2Proof/Certificates/Slice0/Obligations.lean ====
section
/-! DEFINITION. The statements for the provers, from the spec's rules, and the few predicates they are written with. -/

open Sys2Proof Sys2Proof.Machine

namespace Sys2Proof.Claims

/-- A timer after one timer phase: one less when `tick` is 1, never below 0 (R114, R235). -/
def countdown (tick : Bool) (v : Byte) : Byte := if tick then BitVec.ofNat 8 (v.toNat - 1) else v

/-- Every byte of memory reads as before. -/
def sameMemory (s t : State) : Prop := ∀ a, Memory.read t.mem a = Memory.read s.mem a

/-- Every byte of memory outside the `n` bytes from `a` reads as before. -/
def sameMemoryOutside (a n : Nat) (s t : State) : Prop :=
  ∀ c, ¬(a ≤ c ∧ c < a + n) → Memory.read t.mem c = Memory.read s.mem c

/-- Every register not listed is unchanged. -/
def otherRegs (xs : List Reg) (s t : State) : Prop := ∀ r, r ∉ xs → t.reg r = s.reg r

/-- Nothing but `pc` differs. -/
def onlyPc (s t : State) : Prop := t = { s with pc := t.pc }

/-- Nothing but general registers and `pc` differs. -/
def onlyRegsPc (s t : State) : Prop := t = { s with V := t.V, pc := t.pc }

/-- Nothing but `I` and `pc` differs. -/
def onlyIPc (s t : State) : Prop := t = { s with I := t.I, pc := t.pc }

/-- Nothing but the stack, `sp` and `pc` differs. -/
def onlyStackPc (s t : State) : Prop := t = { s with stack := t.stack, sp := t.sp, pc := t.pc }

/-- `i` completes at `s` with `v` in `V[x]` and `pc + 2`; every other register, every byte of memory and all other state is
unchanged. -/
def writesOneRegister (i : Instr) (x : Reg) (v : Byte) (s : State) : Prop :=
  ∃ t, exec i s = .next t ∧ t.reg x = v ∧ t.pc = s.pc + 2 ∧ otherRegs [x] s t ∧ onlyRegsPc s t ∧ sameMemory s t

/-- `i` completes at `s` with the flag `f` in `V[15]`, with `v` in `V[x]` where `x` is not 15, and `pc + 2`; every other
register, every byte of memory and all other state is unchanged. -/
def writesRegisterAndFlag (i : Instr) (x : Reg) (v f : Byte) (s : State) : Prop :=
  ∃ t, exec i s = .next t ∧ (x ≠ 15 → t.reg x = v) ∧ t.reg 15 = f ∧ t.pc = s.pc + 2 ∧ otherRegs [x, 15] s t ∧
    onlyRegsPc s t ∧ sameMemory s t

/-- `i` completes at `s`, skipping the next word exactly when `c`; nothing but `pc` differs. -/
def skipsWhen (i : Instr) (c : Prop) (s : State) : Prop :=
  ∃ t, exec i s = .next t ∧ (c → t.pc = s.pc + 4) ∧ (¬c → t.pc = s.pc + 2) ∧ onlyPc s t ∧ sameMemory s t

/-- The condition an instruction raises, by R220's table and the order of R229. -/
def conditionOf (i : Instr) (s : State) : Option Condition :=
  match i with
  | .ret => if s.sp.val = 0 then some .stackUnderflow else none
  | .call _ => if s.sp.val = 16 then some .stackOverflow else none
  | .drw x y n =>
    if 1 ≤ n.toNat ∧ s.I.toNat + n.toNat - 1 > 0xFFF then some (.memoryOutOfBounds (s.I.toNat + n.toNat - 1))
    else if 1 ≤ n.toNat ∧ ((s.reg x).toNat > 56 ∨ (s.reg y).toNat + n.toNat > 32) then
      some (.drawOutOfBounds (s.reg x) (s.reg y) n)
    else none
  | .ldBcd _ => if s.I.toNat + 2 > 0xFFF then some (.memoryOutOfBounds (s.I.toNat + 2)) else none
  | .stRegs x => if s.I.toNat + x.toNat > 0xFFF then some (.memoryOutOfBounds (s.I.toNat + x.toNat)) else none
  | .ldRegs x => if s.I.toNat + x.toNat > 0xFFF then some (.memoryOutOfBounds (s.I.toNat + x.toNat)) else none
  | .skp x => if (s.reg x).toNat > 15 then some (.keyIndexOutOfRange (s.reg x)) else none
  | .sknp x => if (s.reg x).toNat > 15 then some (.keyIndexOutOfRange (s.reg x)) else none
  | _ => none

/-- The event of a step, by R220's table and the order of R229: fetch bound, decode, the instruction's own tests. -/
def eventOf (s : State) : Option Condition :=
  if s.pc.toNat > 0xFFE then some (.memoryOutOfBounds (s.pc.toNat + 1))
  else
    match decodeWord (Memory.read s.mem s.pc.toNat ++ Memory.read s.mem (s.pc.toNat + 1)) with
    | none => some (.unknownOpcode (Memory.read s.mem s.pc.toNat ++ Memory.read s.mem (s.pc.toNat + 1)))
    | some i => conditionOf i s

/-- The sprite bit that lands on `fb[col][row]`: bit `7 − c` of row byte `mem[I + r]` at column `V[X] + c`, row `V[Y] + r`
(R192), 0 where the sprite does not reach. -/
def spriteAt (s : State) (x y : Reg) (n : BitVec 4) (col row : Nat) : Bool :=
  decide ((s.reg x).toNat ≤ col ∧ col < (s.reg x).toNat + 8 ∧ (s.reg y).toNat ≤ row ∧ row < (s.reg y).toNat + n.toNat) &&
    (Memory.read s.mem (s.I.toNat + (row - (s.reg y).toNat))).getLsbD (7 - (col - (s.reg x).toNat))

/-- The value R260 gives every piece of state of the block. -/
def resetValues (font : Vector Byte 80) (r : State) : Prop :=
  (∀ (k : Nat) (h : k < 80), Memory.read r.mem k = font[k]) ∧
  (∀ a, 80 ≤ a → a < 4096 → Memory.read r.mem a = 0) ∧
  (∀ x : Reg, r.reg x = 0) ∧ r.I = 0 ∧ r.pc = 0x200 ∧ r.sp.val = 0 ∧
  (∀ (k : Nat) (h : k < 16), r.stack[k] = 0) ∧
  (∀ x y, x < 64 → y < 32 → pixel r.fb x y = false) ∧ r.DT = 0 ∧ r.ST = 0 ∧
  (∀ (k : Nat) (h : k < 16), r.key[k] = false) ∧ r.redraw = false

/-- The draw is in bounds: its bytes lie in memory and its extent in the grid (R191, R194). -/
def drawFits (s : State) (x y : Reg) (n : BitVec 4) : Prop :=
  n = 0 ∨ (s.I.toNat + n.toNat ≤ 4096 ∧ (s.reg x).toNat ≤ 56 ∧ (s.reg y).toNat + n.toNat ≤ 32)

/-- The calls that leave a stall in place: all but `reset()`, `load_program` and the refused `set_key` (R232). -/
def keepsStall : HostCall → Bool
  | .reset _ => false
  | .loadProgram _ => false
  | .setKey code _ => decide (code < 16)
  | .step _ _ => true
  | .framebuffer => true
  | .takeRedrawFlag => true
  | .toneActive => true

end Sys2Proof.Claims

open Sys2Proof.Claims

/-! ## Reset -/

/-- R260 for every font (R7): what `reset()` leaves in every piece of state, whatever the state before; the state at
construction holds the same values. -/
def Obligations.ResetGivesEveryPieceOfState : Prop :=
  (∀ (s : State) (font : Vector Byte 80), ∃ r, perform (.reset font) s = .next ⟨.done, r⟩ ∧ resetValues font r) ∧
    resetValues Config.font State.reset

/-- The reset state meets both invariants. -/
def Obligations.ResetMeetsInvariants : Prop := State.reset.memOk ∧ State.reset.pcOk

/-! ## Invariants -/

/-- Every step keeps memory in canonical form (the model's representation, log 32). -/
def Obligations.EveryStepKeepsMemoryCanonical : Prop :=
  ∀ s t : State, s.memOk → step s = .next t → t.memOk

/-- Every step keeps `pc` at most 0x10FE and every stack entry at most 0x1000 (derived in R24 and R130). -/
def Obligations.EveryStepKeepsPcReach : Prop :=
  ∀ s t : State, s.pcOk → step s = .next t → t.pcOk

/-- Whatever operations the host performs after reset, in whatever order, both invariants hold. -/
def Obligations.EveryHostRunMeetsInvariants : Prop :=
  ∀ (calls : List HostCall) (t : State), performAll calls State.reset = .next t → t.memOk ∧ t.pcOk

/-- Two canonical memories that read alike at every address are equal (the model's representation, log 32). -/
def Obligations.CanonicalMemoriesReadAlikeAreEqual : Prop :=
  ∀ m n : Memory, Memory.wf m = true → Memory.wf n = true → (∀ a, Memory.read m a = Memory.read n a) → m = n

/-! ## Encoding -/

/-- Decoding an encoded instruction gives it back, every operand at every value, as a word and as bytes. -/
def Obligations.DecodeOfEncodeIsIdentity : Prop :=
  ∀ (i : Instr) (rest : List Byte),
    decodeWord (encode i) = some i ∧ decodeBytes (encodeBytes i ++ rest) = .ok (i, rest)

/-- Each word has one meaning: encoding a decoded word gives the word back. -/
def Obligations.EncodeOfDecodeIsIdentity : Prop :=
  ∀ (op : Word) (i : Instr), decodeWord op = some i → encode i = op

/-- The nibble decoder of R84 agrees with the mask-and-match map of R85 on every word: an instruction is the one row that
accepts the word, and an Unknown word is accepted by none. -/
def Obligations.DecoderAgreesWithOpcodeMap : Prop :=
  ∀ op : Word, (opcodeTable.filter (fun r => r.accepts op)).map OpcodeRow.mnemonic =
    match decodeWord op with
    | some i => [i.mnemonic]
    | none => []

/-- R86 to R91, R98: exactly which words are Unknown, family by family. -/
def Obligations.UnknownWordsByFamily : Prop :=
  ∀ (f x y n : BitVec 4), decodeWord (f ++ x ++ y ++ n) = none ↔
    (f = 0x0 ∧ ¬(x = 0x0 ∧ y = 0xE ∧ (n = 0x0 ∨ n = 0xE))) ∨
    (f = 0x5 ∧ n ≠ 0x0) ∨
    (f = 0x8 ∧ 8 ≤ n.toNat ∧ n ≠ 0xE) ∨
    (f = 0x9 ∧ n ≠ 0x0) ∨
    (f = 0xE ∧ (y ++ n : BitVec 8) ∉ [0x9E, 0xA1]) ∨
    (f = 0xF ∧ (y ++ n : BitVec 8) ∉ [0x07, 0x0A, 0x15, 0x18, 0x1E, 0x29, 0x33, 0x55, 0x65])

/-- A few words of R102 and R191 and the boundary words of R86 to R90. -/
def Obligations.WrittenWordsDecode : Prop :=
  decodeWord 0x632A = some (.ldImm 3 0x2A) ∧ decodeWord 0xD125 = some (.drw 1 2 5) ∧
  decodeWord 0x1204 = some (.jp 0x204) ∧ decodeWord 0x8476 = some (.shr 4 7) ∧ decodeWord 0x00E0 = some .cls ∧
  decodeWord 0x00EE = some .ret ∧ decodeWord 0xF533 = some (.ldBcd 5) ∧ decodeWord 0xE1A1 = some (.sknp 1) ∧
  decodeWord 0x0000 = none ∧ decodeWord 0x5121 = none ∧ decodeWord 0x8AB8 = none

/-! ## The step -/

/-- R56: the fetch is big-endian, at whatever `pc` holds up to 0xFFE. -/
def Obligations.FetchIsBigEndian : Prop :=
  ∀ s : State, s.pc.toNat ≤ 0xFFE → ∃ op, fetch s = .ok op ∧
    op.extractLsb' 8 8 = Memory.read s.mem s.pc.toNat ∧ op.extractLsb' 0 8 = Memory.read s.mem (s.pc.toNat + 1)

/-- A step runs the decoded instruction: where the word at `pc` decodes to `i` and the step is no wait step, `i` runs with
the event cleared, and around it the step only counts the timers down and uses up its inputs. The order of the phases is the
spec's own decision D2 (log 5). -/
def Obligations.StepRunsDecodedInstruction : Prop :=
  ∀ (s : State) (op : Word) (i : Instr), fetch s = .ok op → decodeWord op = some i →
    ((∃ x, i = .ldKey x) → ∃ (k : Nat) (h : k < 16), s.key[k] = true) →
    ∃ t, exec i { s with event := none } = .next t ∧
      step s = .next { t with
        DT := countdown s.tickIn t.DT
        ST := countdown s.tickIn t.ST
        inputs := s.inputs.tail
        stepIndex := s.stepIndex + 1 }

/-- Every step completes and returns: the machine never stops with a fault or a refusal. R119 is marked as derived by the
spec itself. -/
def Obligations.EveryStepCompletes : Prop := ∀ s : State, ∃ t, step s = .next t

/-- The event of a step is the one R220's table and R229's order give. The events' form, and which condition comes first, are
the spec's own decisions D5 to D10 and D23. -/
def Obligations.StepEventFollowsConditionTable : Prop :=
  ∀ s : State, ∃ t, step s = .next t ∧ t.event = eventOf s

/-- A step that reports a condition leaves all state of the block as it was but the timers, which count down as in any other
step. The spec's own decision D5 (log 8). -/
def Obligations.ConditionLeavesBlockUnchanged : Prop :=
  ∀ (s t : State) (c : Condition), step s = .next t → t.event = some c →
    t = { s with
      DT := countdown s.tickIn s.DT
      ST := countdown s.tickIn s.ST
      event := some c
      inputs := s.inputs.tail
      stepIndex := s.stepIndex + 1 }

/-- A reported condition persists: after any calls but `reset()` and `load_program`, the next step reports it again. R232 is
marked as derived by the spec itself. -/
def Obligations.ConditionPersists : Prop :=
  ∀ (s t u : State) (c : Condition) (calls : List HostCall), step s = .next t → t.event = some c →
    calls.all keepsStall = true → performAll calls t = .next u → Stalled u c

/-- However often a step fetches `FX0A` with every latch 0, no state of the block changes, the timers included. The frozen
timers are the spec's reading C6, D24 (log 7). -/
def Obligations.KeyWaitChangesNothing : Prop :=
  ∀ (n : Nat) (s : State) (op : Word) (x : Reg), fetch s = .ok op → decodeWord op = some (.ldKey x) →
    (∀ (k : Nat) (h : k < 16), s.key[k] = false) →
    runSteps n s = .next { s with
      event := if n = 0 then s.event else none
      inputs := s.inputs.drop n
      stepIndex := s.stepIndex + n }

/-- The timers over a whole step that is no wait step: it counts down what `FX15` or `FX18` has just written, or the old value. The
phase order is the spec's own decision D2 (log 5). -/
def Obligations.TimersOverAStep : Prop :=
  ∀ (s t : State) (op : Word) (i : Instr), fetch s = .ok op → decodeWord op = some i →
    ((∃ x, i = .ldKey x) → ∃ (k : Nat) (h : k < 16), s.key[k] = true) → step s = .next t →
    (∀ x, i = .ldToDt x → t.DT = countdown s.tickIn (s.reg x)) ∧
    ((∀ x, i ≠ .ldToDt x) → t.DT = countdown s.tickIn s.DT) ∧
    (∀ x, i = .ldToSt x → t.ST = countdown s.tickIn (s.reg x)) ∧
    ((∀ x, i ≠ .ldToSt x) → t.ST = countdown s.tickIn s.ST)

/-- The `rnd` input changes the outcome of a step only when the instruction is `CXNN`, and then only `V[X]`. -/
def Obligations.RndInfluencesOnlyCXNN : Prop :=
  ∀ (s : State) (tick : Bool) (r1 r2 : Byte) (t u : State), stepWith tick r1 s = .next t → stepWith tick r2 s = .next u →
    (∀ op x nn, fetch s = .ok op → decodeWord op = some (.rnd x nn) →
      otherRegs [x] t u ∧ u = { t with V := u.V }) ∧
    ((∀ op x nn, fetch s = .ok op → decodeWord op ≠ some (.rnd x nn)) → t = u)

/-- The `tick` input changes nothing but the timers. -/
def Obligations.TickInfluencesOnlyTimers : Prop :=
  ∀ (s : State) (rnd : Byte) (t u : State), stepWith true rnd s = .next t → stepWith false rnd s = .next u →
    u = { t with DT := u.DT, ST := u.ST } ∧ (isWaitStep s = true → t = u) ∧
    (isWaitStep s = false → t.DT = countdown true u.DT ∧ t.ST = countdown true u.ST)

/-! ## Who writes what -/

/-- Each cell is written only by the instructions the spec names: memory by FX33 and FX55, the stack by 00EE and 2NNN, the
framebuffer by 00E0 and DXYN, `redraw` (to 1) by DXYN, `DT` by FX15, `ST` by FX18, `I` by the five of R23, a latch by none. -/
def Obligations.OnlyNamedInstructionsWriteEachCell : Prop :=
  ∀ (i : Instr) (s t : State), exec i s = .next t →
    (t.mem ≠ s.mem → (∃ x, i = .ldBcd x) ∨ (∃ x, i = .stRegs x)) ∧
    (t.stack ≠ s.stack → ∃ a, i = .call a) ∧
    (t.sp ≠ s.sp → i = .ret ∨ ∃ a, i = .call a) ∧
    (t.fb ≠ s.fb → i = .cls ∨ ∃ x y n, i = .drw x y n) ∧
    (t.redraw ≠ s.redraw → t.redraw = true ∧ ∃ x y n, i = .drw x y n) ∧
    (t.DT ≠ s.DT → ∃ x, i = .ldToDt x) ∧
    (t.ST ≠ s.ST → ∃ x, i = .ldToSt x) ∧
    (t.I ≠ s.I → (∃ a, i = .ldIndex a) ∨ (∃ x, i = .addIndex x) ∨ (∃ x, i = .ldFont x) ∨ (∃ x, i = .stRegs x) ∨
      (∃ x, i = .ldRegs x)) ∧
    t.key = s.key

/-- `VF` changes only by the six instructions of R22's table or as a named destination, and those six leave 0 or 1 in it
when they complete. That the flag survives with `X = 15` is the spec's own decision D13 (log 13). -/
def Obligations.OnlyFlagInstructionsTouchVF : Prop :=
  ∀ (i : Instr) (s t : State), exec i s = .next t →
    (t.reg 15 ≠ s.reg 15 →
      (∃ x y, i = .addReg x y ∨ i = .sub x y ∨ i = .shr x y ∨ i = .subn x y ∨ i = .shl x y ∨ ∃ n, i = .drw x y n) ∨
      (∃ nn, i = .ldImm 15 nn ∨ i = .addImm 15 nn ∨ i = .rnd 15 nn) ∨
      (∃ y, i = .ldReg 15 y ∨ i = .orReg 15 y ∨ i = .andReg 15 y ∨ i = .xorReg 15 y) ∨
      i = .ldFromDt 15 ∨ i = .ldKey 15 ∨ i = .ldRegs 15) ∧
    (∀ x y, (i = .addReg x y ∨ i = .sub x y ∨ i = .shr x y ∨ i = .subn x y ∨ i = .shl x y ∨
        ∃ n, i = .drw x y n ∧ conditionOf i s = none) → t.reg 15 = 0 ∨ t.reg 15 = 1)

/-! ## Load and ALU -/

/-- R150 to R152: `6XNN`, `7XNN` and `8XY0`, encoding, result and frame. -/
def Obligations.LoadAddImmediateAndCopy : Prop :=
  ∀ (x y : Reg) (nn : Byte) (s : State),
    decodeWord (0x6#4 ++ x ++ nn) = some (.ldImm x nn) ∧ writesOneRegister (.ldImm x nn) x nn s ∧
    decodeWord (0x7#4 ++ x ++ nn) = some (.addImm x nn) ∧
    writesOneRegister (.addImm x nn) x (BitVec.ofNat 8 (((s.reg x).toNat + nn.toNat) % 256)) s ∧
    decodeWord (0x8#4 ++ x ++ y ++ 0x0#4) = some (.ldReg x y) ∧ writesOneRegister (.ldReg x y) x (s.reg y) s

/-- `8XY1`, `8XY2`, `8XY3` bit by bit. That they leave `V[15]` alone is the spec's own decision D26 (log 23). -/
def Obligations.BitwiseOperations : Prop :=
  ∀ (x y : Reg) (s : State), ∃ t u w, exec (.orReg x y) s = .next t ∧ exec (.andReg x y) s = .next u ∧
    exec (.xorReg x y) s = .next w ∧
    (∀ k, k < 8 → (t.reg x).getLsbD k = ((s.reg x).getLsbD k || (s.reg y).getLsbD k) ∧
      (u.reg x).getLsbD k = ((s.reg x).getLsbD k && (s.reg y).getLsbD k) ∧
      (w.reg x).getLsbD k = ((s.reg x).getLsbD k ^^ (s.reg y).getLsbD k)) ∧
    ∀ v ∈ [t, u, w], v.pc = s.pc + 2 ∧ otherRegs [x] s v ∧ onlyRegsPc s v ∧ sameMemory s v

/-- `8XY4`: the sum modulo 256 and its carry. That the flag survives with `X = 15` is the spec's own decision D13 (log 13). -/
def Obligations.AddRegistersWithCarry : Prop :=
  ∀ (x y : Reg) (s : State), writesRegisterAndFlag (.addReg x y) x
    (BitVec.ofNat 8 (((s.reg x).toNat + (s.reg y).toNat) % 256))
    (if (s.reg x).toNat + (s.reg y).toNat > 255 then 1 else 0) s

/-- `8XY5` and `8XY7`: the difference modulo 256 and the no-borrow flag, 1 at equality too. Equality is the spec's own decision
D14 (log 14), the operand order of `8XY7` general knowledge by its mark D30 (log 26), `X = 15` its decision D13 (log 13). -/
def Obligations.SubtractRegistersWithNoBorrow : Prop :=
  ∀ (x y : Reg) (s : State),
    writesRegisterAndFlag (.sub x y) x (BitVec.ofNat 8 ((256 + (s.reg x).toNat - (s.reg y).toNat) % 256))
      (if (s.reg x).toNat ≥ (s.reg y).toNat then 1 else 0) s ∧
    writesRegisterAndFlag (.subn x y) x (BitVec.ofNat 8 ((256 + (s.reg y).toNat - (s.reg x).toNat) % 256))
      (if (s.reg y).toNat ≥ (s.reg x).toNat then 1 else 0) s

/-- `8XY6` and `8XYE`: `V[X]` halved or doubled in place, the bit shifted out in `VF`, `Y` of no effect. That `V[X]` is shifted
is the spec's own decision D12 (log 12), `X = 15` its decision D13 (log 13). -/
def Obligations.ShiftRegisterByOne : Prop :=
  ∀ (x y : Reg) (s : State),
    writesRegisterAndFlag (.shr x y) x (BitVec.ofNat 8 ((s.reg x).toNat / 2)) (BitVec.ofNat 8 ((s.reg x).toNat % 2)) s ∧
    writesRegisterAndFlag (.shl x y) x (BitVec.ofNat 8 ((s.reg x).toNat * 2 % 256))
      (BitVec.ofNat 8 ((s.reg x).toNat / 128)) s

/-- `CXNN` in a step with any `tick` and any `rnd`: `V[X]` is `NN AND rnd`, and every other register, all memory and everything
but `pc`, the timers and the model's own fields is unchanged. The input `rnd` is the spec's own decision D4 (log 1). -/
def Obligations.RandomAndMask : Prop :=
  ∀ (x : Reg) (nn : Byte) (s : State), writesOneRegister (.rnd x nn) x (nn &&& s.rndIn) s ∧
    ∀ (op : Word) (tick : Bool) (rnd : Byte), fetch s = .ok op → decodeWord op = some (.rnd x nn) →
      ∃ t, stepWith tick rnd s = .next t ∧ t.reg x = nn &&& rnd ∧ otherRegs [x] s t ∧ sameMemory s t ∧
        t = { s with
          V := t.V
          pc := s.pc + 2
          DT := countdown tick s.DT
          ST := countdown tick s.ST
          event := none
          stepIndex := s.stepIndex + 1 }

/-! ## Control flow -/

/-- `1NNN` and `BNNN`: encoding, target and frame; a target above 0xFFE makes the next fetch raise, by the spec's own decision
D8 (log 9). -/
def Obligations.JumpsSetPc : Prop :=
  ∀ (nnn : BitVec 12) (s : State),
    decodeWord (0x1#4 ++ nnn) = some (.jp nnn) ∧ decodeWord (0xB#4 ++ nnn) = some (.jpV0 nnn) ∧
    ∃ t u, exec (.jp nnn) s = .next t ∧ t.pc.toNat = nnn.toNat ∧ onlyPc s t ∧ sameMemory s t ∧
      exec (.jpV0 nnn) s = .next u ∧ u.pc.toNat = (s.reg 0).toNat + nnn.toNat ∧ onlyPc s u ∧ sameMemory s u ∧
      ∀ v ∈ [t, u], 0xFFE < v.pc.toNat → fetch v = .error (.memoryOutOfBounds (v.pc.toNat + 1))

/-- `2NNN`: with `sp < 16` the return address `pc + 2` is pushed and `pc` is `NNN`; with `sp = 16` StackOverflow, and nothing
else changes (the spec's own decision D7, log 39). -/
def Obligations.CallPushesReturnAddress : Prop :=
  ∀ (nnn : BitVec 12) (s : State),
    (s.sp.val < 16 → ∃ t, exec (.call nnn) s = .next t ∧ t.sp.val = s.sp.val + 1 ∧
      (∀ (k : Nat) (h : k < 16), t.stack[k] = if k = s.sp.val then s.pc + 2 else s.stack[k]) ∧
      t.pc.toNat = nnn.toNat ∧ onlyStackPc s t ∧ sameMemory s t) ∧
    (s.sp.val = 16 → exec (.call nnn) s = .next { s with event := some .stackOverflow })

/-- `00EE`: with `sp > 0` the popped entry goes to `pc` unchanged and keeps its value (the spec's own decision D17, log 16); with
`sp = 0` StackUnderflow, and nothing else changes (its decision D7, log 39). -/
def Obligations.ReturnPopsAddress : Prop :=
  ∀ s : State,
    (∀ h : 0 < s.sp.val, ∃ t, exec .ret s = .next t ∧ t.sp.val = s.sp.val - 1 ∧
      t.pc = s.stack[s.sp.val - 1]'(by omega) ∧ t.stack = s.stack ∧ onlyStackPc s t ∧ sameMemory s t) ∧
    (s.sp.val = 0 → exec .ret s = .next { s with event := some .stackUnderflow })

/-- A call and the return at its target lead to the instruction after the call, the stack pointer as before. -/
def Obligations.CallThenReturnResumes : Prop :=
  ∀ (s : State) (op : Word) (nnn : BitVec 12), fetch s = .ok op → decodeWord op = some (.call nnn) → s.sp.val < 16 →
    nnn.toNat ≤ 0xFFE → Memory.read s.mem nnn.toNat = 0x00 → Memory.read s.mem (nnn.toNat + 1) = 0xEE →
    ∃ t, runSteps 2 s = .next t ∧ t.pc = s.pc + 2 ∧ t.sp = s.sp ∧ t.event = none ∧
      ∃ h : s.sp.val < 16, t.stack[s.sp.val] = s.pc + 2

/-- R133 to R136: `3XNN`, `4XNN`, `5XY0`, `9XY0`, encoding, condition and frame. -/
def Obligations.RegisterSkips : Prop :=
  ∀ (x y : Reg) (nn : Byte) (s : State),
    decodeWord (0x3#4 ++ x ++ nn) = some (.seImm x nn) ∧ skipsWhen (.seImm x nn) (s.reg x = nn) s ∧
    decodeWord (0x4#4 ++ x ++ nn) = some (.sneImm x nn) ∧ skipsWhen (.sneImm x nn) (s.reg x ≠ nn) s ∧
    decodeWord (0x5#4 ++ x ++ y ++ 0x0#4) = some (.seReg x y) ∧ skipsWhen (.seReg x y) (s.reg x = s.reg y) s ∧
    decodeWord (0x9#4 ++ x ++ y ++ 0x0#4) = some (.sneReg x y) ∧ skipsWhen (.sneReg x y) (s.reg x ≠ s.reg y) s ∧
    ∀ n : BitVec 4, n ≠ 0 → decodeWord (0x5#4 ++ x ++ y ++ n) = none ∧ decodeWord (0x9#4 ++ x ++ y ++ n) = none

/-! ## Index and memory -/

/-- R170: `ANNN`, encoding, result and frame. -/
def Obligations.LoadIndexSetsI : Prop :=
  ∀ (nnn : BitVec 12) (s : State), decodeWord (0xA#4 ++ nnn) = some (.ldIndex nnn) ∧
    ∃ t, exec (.ldIndex nnn) s = .next t ∧ t.I.toNat = nnn.toNat ∧ t.pc = s.pc + 2 ∧ onlyIPc s t ∧ sameMemory s t

/-- `FX1E` and `FX29`: the sum modulo 65536 without a flag, and the whole byte times 5. The 16-bit wrap is derived by the spec
itself (log 36), the unmasked product its decision D27 (log 24). -/
def Obligations.AddIndexAndFontAddress : Prop :=
  ∀ (x : Reg) (s : State), ∃ t u, exec (.addIndex x) s = .next t ∧ t.I.toNat = (s.I.toNat + (s.reg x).toNat) % 65536 ∧
    exec (.ldFont x) s = .next u ∧ u.I.toNat = (s.reg x).toNat * 5 ∧
    ∀ v ∈ [t, u], v.pc = s.pc + 2 ∧ onlyIPc s v ∧ sameMemory s v

/-- `FX33`: hundreds, tens and ones at `I`, `I + 1`, `I + 2`, and no other byte changes; above `I = 0xFFD` the condition and
nothing else (the spec's own decision D8, log 9). -/
def Obligations.StoreDecimalDigits : Prop :=
  ∀ (x : Reg) (s : State), s.memOk →
    (s.I.toNat ≤ 0xFFD → ∃ t, exec (.ldBcd x) s = .next t ∧
      (Memory.read t.mem (dataAddress s)).toNat = (s.reg x).toNat / 100 ∧
      (Memory.read t.mem (dataAddress s + 1)).toNat = (s.reg x).toNat / 10 % 10 ∧
      (Memory.read t.mem (dataAddress s + 2)).toNat = (s.reg x).toNat % 10 ∧
      (∀ a, dataAddress s = a → sameMemoryOutside a 3 s t) ∧
      t.pc = s.pc + 2 ∧ t = { s with mem := t.mem, pc := t.pc }) ∧
    (0xFFD < s.I.toNat → exec (.ldBcd x) s = .next { s with event := some (.memoryOutOfBounds (s.I.toNat + 2)) })

/-- `FX55`: `mem[I + k] <- V[k]` for `k` up to `X`, no other byte changes, `I + X + 1`; past 0xFFF the condition and nothing else
(the spec's own decisions D8, D25, log 9 and 22). -/
def Obligations.StoreRegisters : Prop :=
  ∀ (x : Reg) (s : State), s.memOk →
    (s.I.toNat + x.toNat ≤ 0xFFF → ∃ t, exec (.stRegs x) s = .next t ∧
      (∀ r : Reg, r.toNat ≤ x.toNat → Memory.read t.mem (dataAddress s + r.toNat) = s.reg r) ∧
      (∀ a, dataAddress s = a → sameMemoryOutside a (x.toNat + 1) s t) ∧
      t.I.toNat = s.I.toNat + x.toNat + 1 ∧ t.pc = s.pc + 2 ∧ t = { s with mem := t.mem, I := t.I, pc := t.pc }) ∧
    (0xFFF < s.I.toNat + x.toNat →
      exec (.stRegs x) s = .next { s with event := some (.memoryOutOfBounds (s.I.toNat + x.toNat)) })

/-- `FX65`: `V[k] <- mem[I + k]` for `k` up to `X`, the registers above keep their values, `I + X + 1`; past 0xFFF the condition
and nothing else (the spec's own decisions D8, D25, log 9 and 22). -/
def Obligations.LoadRegisters : Prop :=
  ∀ (x : Reg) (s : State),
    (s.I.toNat + x.toNat ≤ 0xFFF → ∃ t, exec (.ldRegs x) s = .next t ∧
      (∀ r : Reg, r.toNat ≤ x.toNat → t.reg r = Memory.read s.mem (s.I.toNat + r.toNat)) ∧
      (∀ r : Reg, x.toNat < r.toNat → t.reg r = s.reg r) ∧
      t.I.toNat = s.I.toNat + x.toNat + 1 ∧ t.pc = s.pc + 2 ∧ sameMemory s t ∧
      t = { s with V := t.V, I := t.I, pc := t.pc }) ∧
    (0xFFF < s.I.toNat + x.toNat →
      exec (.ldRegs x) s = .next { s with event := some (.memoryOutOfBounds (s.I.toNat + x.toNat)) })

/-- What `FX55` stored, `FX65` with the same `X` at the old address loads back, whatever the registers hold by then. -/
def Obligations.StoreThenLoadRestoresRegisters : Prop :=
  ∀ (x : Reg) (s t w : State), s.memOk → s.I.toNat + x.toNat ≤ 0xFFF → exec (.stRegs x) s = .next t →
    w.mem = t.mem → w.I = s.I → ∃ v, exec (.ldRegs x) w = .next v ∧
      (∀ r : Reg, r.toNat ≤ x.toNat → v.reg r = s.reg r) ∧ (∀ r : Reg, x.toNat < r.toNat → v.reg r = w.reg r)

/-- A stored word is what the next fetch of its address reads (self-modifying code needs no special action). -/
def Obligations.StoreIsSeenByFetch : Prop :=
  ∀ (x : Reg) (s t w : State), s.memOk → s.I.toNat + x.toNat ≤ 0xFFF → exec (.stRegs x) s = .next t → w.mem = t.mem →
    ∀ r q : Reg, q.toNat = r.toNat + 1 → q.toNat ≤ x.toNat → w.pc.toNat = s.I.toNat + r.toNat →
      fetch w = .ok (s.reg r ++ s.reg q)

/-! ## Display -/

/-- `00E0`: every pixel 0, `pc + 2`, nothing else. That `redraw` stays is the spec's own decision D18 (log 17). -/
def Obligations.ClearScreen : Prop :=
  ∀ s : State, ∃ t, exec .cls s = .next t ∧ (∀ x y, x < 64 → y < 32 → pixel t.fb x y = false) ∧ t.pc = s.pc + 2 ∧
    t = { s with fb := t.fb, pc := t.pc } ∧ sameMemory s t

/-- `DXYN` in bounds: every pixel is XORed with the sprite bit that lands on it, `VF` is 1 exactly when some pixel goes from 1
to 0, `redraw` is set. The bit order is general knowledge by the spec's mark D21 (log 19), `N = 0` its decision D31 (log 27). -/
def Obligations.DrawXorsSprite : Prop :=
  ∀ (x y : Reg) (n : BitVec 4) (s : State), drawFits s x y n → ∃ t, exec (.drw x y n) s = .next t ∧
    (∀ col row, col < 64 → row < 32 → pixel t.fb col row = (pixel s.fb col row ^^ spriteAt s x y n col row)) ∧
    ((∃ col row, col < 64 ∧ row < 32 ∧ pixel s.fb col row = true ∧ pixel t.fb col row = false) → t.reg 15 = 1) ∧
    ((¬∃ col row, col < 64 ∧ row < 32 ∧ pixel s.fb col row = true ∧ pixel t.fb col row = false) → t.reg 15 = 0) ∧
    t.redraw = true ∧ t.pc = s.pc + 2 ∧ otherRegs [15] s t ∧ sameMemory s t ∧
    t = { s with fb := t.fb, V := t.V, redraw := t.redraw, pc := t.pc }

/-- `DXYN` out of bounds: the memory bound is tested first, then the extent; nothing but the event changes. The spec's own
decisions D8, D9, D23 (log 9, 10, 21). -/
def Obligations.DrawOutOfBoundsChangesNothing : Prop :=
  ∀ (x y : Reg) (n : BitVec 4) (s : State), n ≠ 0 →
    (4096 < s.I.toNat + n.toNat →
      exec (.drw x y n) s = .next { s with event := some (.memoryOutOfBounds (s.I.toNat + n.toNat - 1)) }) ∧
    (s.I.toNat + n.toNat ≤ 4096 → 56 < (s.reg x).toNat ∨ 32 < (s.reg y).toNat + n.toNat →
      exec (.drw x y n) s = .next { s with event := some (.drawOutOfBounds (s.reg x) (s.reg y) n) })

/-- Drawing the same sprite at the same place twice restores the framebuffer, and the second draw collides exactly when the
first one turned a pixel on. The anchor registers are not `VF`, which the first draw rewrites. -/
def Obligations.DrawTwiceRestoresFramebuffer : Prop :=
  ∀ (x y : Reg) (n : BitVec 4) (s t : State), x ≠ 15 → y ≠ 15 → drawFits s x y n → exec (.drw x y n) s = .next t →
    ∃ u, exec (.drw x y n) t = .next u ∧ u.fb = s.fb ∧
      (u.reg 15 = 1 ↔ ∃ col row, col < 64 ∧ row < 32 ∧ pixel s.fb col row = false ∧ pixel t.fb col row = true)

/-! ## Keys and timers -/

/-- `EX9E`, `EXA1`: the latch of code `V[X]` decides the skip; above 15 the condition and nothing else (the spec's own decision
D10, log 11). -/
def Obligations.KeySkips : Prop :=
  ∀ (x : Reg) (s : State),
    (∀ h : (s.reg x).toNat < 16, skipsWhen (.skp x) (s.key[(s.reg x).toNat] = true) s ∧
      skipsWhen (.sknp x) (s.key[(s.reg x).toNat] = false) s) ∧
    (16 ≤ (s.reg x).toNat →
      exec (.skp x) s = .next { s with event := some (.keyIndexOutOfRange (s.reg x)) } ∧
      exec (.sknp x) s = .next { s with event := some (.keyIndexOutOfRange (s.reg x)) })

/-- `FX0A` with a latch set: the lowest set code goes to `V[X]` and the latches stay; with none set nothing changes. The lowest
code is the spec's own decision D11 (log 4). -/
def Obligations.LoadKeyPicksLowest : Prop :=
  ∀ (x : Reg) (s : State),
    (∀ (k : Nat) (h : k < 16), s.key[k] = true → (∀ (j : Nat) (hj : j < k), s.key[j] = false) →
      writesOneRegister (.ldKey x) x (BitVec.ofNat 8 k) s) ∧
    ((∀ (k : Nat) (h : k < 16), s.key[k] = false) → exec (.ldKey x) s = .next s)

/-- `FX07`, `FX15`, `FX18`: encoding, result and frame, alone and over a step with any `tick`. That the countdown follows the
instruction in the same step is the spec's own decision D2 (log 5). -/
def Obligations.TimerInstructions : Prop :=
  ∀ (x : Reg) (s : State),
    decodeWord (0xF#4 ++ x ++ 0x07#8) = some (.ldFromDt x) ∧ writesOneRegister (.ldFromDt x) x s.DT s ∧
    decodeWord (0xF#4 ++ x ++ 0x15#8) = some (.ldToDt x) ∧
    exec (.ldToDt x) s = .next { s with DT := s.reg x, pc := s.pc + 2 } ∧
    decodeWord (0xF#4 ++ x ++ 0x18#8) = some (.ldToSt x) ∧
    exec (.ldToSt x) s = .next { s with ST := s.reg x, pc := s.pc + 2 } ∧
    ∀ (tick : Bool) (rnd : Byte),
      (fetch s = .ok (0xF#4 ++ x ++ 0x07#8) → ∃ t, stepWith tick rnd s = .next t ∧ t.reg x = s.DT ∧
        t.DT = countdown tick s.DT ∧ t.ST = countdown tick s.ST) ∧
      (fetch s = .ok (0xF#4 ++ x ++ 0x15#8) → ∃ t, stepWith tick rnd s = .next t ∧ t.DT = countdown tick (s.reg x) ∧
        t.ST = countdown tick s.ST) ∧
      (fetch s = .ok (0xF#4 ++ x ++ 0x18#8) → ∃ t, stepWith tick rnd s = .next t ∧ t.ST = countdown tick (s.reg x) ∧
        t.DT = countdown tick s.DT ∧ toneActive t = decide (0 < (countdown tick (s.reg x)).toNat))

/-! ## The host interface -/

/-- `load_program`: up to 3584 bytes are copied to 0x200 upward and nothing else changes. That it does nothing else is the spec's
own decision D32 (log 28). -/
def Obligations.LoadProgramCopies : Prop :=
  ∀ (bytes : List Byte) (s : State), s.memOk → bytes.length ≤ 3584 →
    ∃ t, perform (.loadProgram bytes) s = .next ⟨.load none, t⟩ ∧
      (∀ (k : Nat) (h : k < bytes.length), Memory.read t.mem (0x200 + k) = bytes[k]) ∧
      sameMemoryOutside 0x200 bytes.length s t ∧ t = { s with mem := t.mem }

/-- R228: a program above 3584 bytes is rejected and the prior state untouched; one of exactly 3584 bytes fills 0x200 to 0xFFF;
no step ever reports this condition. -/
def Obligations.ProgramTooLargeRejected : Prop :=
  ∀ (bytes : List Byte) (s : State), s.memOk →
    (3584 < bytes.length → perform (.loadProgram bytes) s = .next ⟨.load (some .programTooLarge), s⟩) ∧
    (bytes.length = 3584 → ∃ t, perform (.loadProgram bytes) s = .next ⟨.load none, t⟩ ∧
      ∀ a, 0x200 ≤ a → a ≤ 0xFFF → Memory.read t.mem a = bytes.getD (a - 0x200) 0) ∧
    ∀ t, step s = .next t → t.event ≠ some .programTooLarge

/-- `set_key`: the latch of the code is written and nothing else changes; a code above 15 is refused (the spec's own decision D28,
log 25). -/
def Obligations.SetKeyWritesOneLatch : Prop :=
  ∀ (code : Nat) (pressed : Bool) (s : State),
    (∀ h : code < 16, ∃ t, perform (.setKey code pressed) s = .next ⟨.done, t⟩ ∧ t.key[code] = pressed ∧
      (∀ (k : Nat) (hk : k < 16), k ≠ code → t.key[k] = s.key[k]) ∧ t = { s with key := t.key }) ∧
    (16 ≤ code → perform (.setKey code pressed) s = .refused (.setKeyOutsideInterface code))

/-- R245, R246: the framebuffer snapshot and `tone_active` answer from the state and change none. -/
def Obligations.ReadAccessorsChangeNothing : Prop :=
  ∀ s : State, perform .framebuffer s = .next ⟨.grid s.fb, s⟩ ∧
    ∃ b, perform .toneActive s = .next ⟨.bool b, s⟩ ∧ (b = true ↔ s.ST.toNat > 0)

/-- `take_redraw_flag`: it returns the flag and clears it, touching nothing else; until a `DXYN` runs no instruction sets it
again, so a second call returns false. -/
def Obligations.TakeRedrawFlagReadsAndClears : Prop :=
  ∀ s : State, ∃ t, perform .takeRedrawFlag s = .next ⟨.bool s.redraw, t⟩ ∧ t.redraw = false ∧
    t = { s with redraw := false } ∧ perform .takeRedrawFlag t = .next ⟨.bool false, t⟩ ∧
    ∀ (i : Instr) (u v : State), u.redraw = false → (∀ x y n, i ≠ .drw x y n) → exec i u = .next v → v.redraw = false

/-- Every one of the seven host operations, from every state that meets both invariants, keeps them: memory stays canonical
(the model's representation, log 32), and `pc` and the stack entries stay within reach (derived in R24 and R130). The reset
state meets both. -/
def Obligations.EveryHostCallKeepsInvariants : Prop :=
  (∀ (c : HostCall) (s : State) (a : HostAnswer), s.memOk → s.pcOk → perform c s = .next a →
    a.state.memOk ∧ a.state.pcOk) ∧ State.reset.memOk ∧ State.reset.pcOk
end

