-- ==== Sys2Proof/Laws/Memory.lean ====
section
/-! SUPPORT. The laws of memory: read after write, every other byte as before, and the canonical form kept (log 32). -/

namespace Sys2Proof.Machine.Memory

/-! ## Read after write -/

theorem read_put (m : Memory) (a : Nat) (b : Byte) (c : Nat) :
    read (put m a b) c = if c = a then b else read m c := by
  induction m with
  | nil => simp only [put, read]; split <;> split <;> first | rfl | omega
  | cons e rest ih =>
    obtain ⟨k, d⟩ := e
    simp only [put]
    by_cases h1 : a < k
    · rw [if_pos h1, read]
      by_cases h : c = a
      · simp [h]
      · rw [if_neg h, if_neg (Ne.symm h)]
    · rw [if_neg h1]
      by_cases h2 : a = k
      · subst h2
        simp only [if_true, read]
        by_cases h : c = a
        · simp [h]
        · simp [h, Ne.symm h]
      · rw [if_neg h2]; simp only [read, ih]
        by_cases h3 : k = c
        · have : c ≠ a := by omega
          simp [h3, this]
        · simp [h3]

/-- Every address listed after the first entry of a canonical memory is above it. -/
theorem lt_of_wf {k : Nat} {d : Byte} {rest : Memory} (h : wf ((k, d) :: rest) = true) :
    k < 4096 ∧ d ≠ unlisted k ∧ (∀ e ∈ rest, k < e.1) ∧ wf rest = true := by
  simpa [wf, and_assoc] using h

theorem read_of_above {m : Memory} {a : Nat} (h : ∀ e ∈ m, a < e.1) : read m a = unlisted a := by
  induction m with
  | nil => rfl
  | cons e rest ih =>
    have h1 := h e List.mem_cons_self
    rw [read, if_neg (by omega)]
    exact ih fun e he => h e (List.mem_cons_of_mem _ he)

theorem read_erase (m : Memory) (a c : Nat) (hm : wf m = true) :
    read (erase m a) c = if c = a then unlisted a else read m c := by
  induction m with
  | nil => simp only [erase, read]; split <;> simp_all
  | cons e rest ih =>
    obtain ⟨k, d⟩ := e
    obtain ⟨-, -, h3, h4⟩ := lt_of_wf hm
    simp only [erase]
    by_cases h1 : k = a
    · subst h1
      simp only [if_true]
      by_cases h2 : c = k
      · subst h2; simp [read_of_above h3]
      · rw [if_neg h2, read, if_neg (Ne.symm h2)]
    · rw [if_neg h1, read, read, ih h4]
      by_cases h2 : k = c
      · have : c ≠ a := by omega
        simp [h2, this]
      · simp [h2]

/-- `mem[a] <- b`: byte `a` reads as `b`, every other byte as before (R26, R59). -/
theorem read_write (m : Memory) (a : Nat) (b : Byte) (c : Nat) (hm : wf m = true) :
    read (write m a b) c = if c = a then b else read m c := by
  unfold write
  by_cases h : b = unlisted a
  · rw [if_pos h, read_erase _ _ _ hm, h]
  · rw [if_neg h, read_put]

/-! ## The canonical form is kept -/

theorem mem_put {m : Memory} {a : Nat} {b : Byte} {e : Host.Cell} (h : e ∈ put m a b) : e = (a, b) ∨ e ∈ m := by
  induction m with
  | nil => simpa [put] using h
  | cons f rest ih =>
    obtain ⟨k, d⟩ := f
    simp only [put] at h
    split at h
    · simpa using h
    · split at h
      · rcases List.mem_cons.1 h with h | h <;> simp [h]
      · rcases List.mem_cons.1 h with h | h
        · simp [h]
        · rcases ih h with h | h <;> simp [h]

theorem mem_erase {m : Memory} {a : Nat} {e : Host.Cell} (h : e ∈ erase m a) : e ∈ m := by
  induction m with
  | nil => simp [erase] at h
  | cons f rest ih =>
    obtain ⟨k, d⟩ := f
    simp only [erase] at h
    split at h
    · simp [h]
    · rcases List.mem_cons.1 h with h | h
      · simp [h]
      · simp [ih h]

theorem wf_cons {k : Nat} {d : Byte} {rest : Memory} (h1 : k < 4096) (h2 : d ≠ unlisted k) (h3 : ∀ e ∈ rest, k < e.1)
    (h4 : wf rest = true) : wf ((k, d) :: rest) = true := by
  simpa [wf, and_assoc] using ⟨h1, h2, fun a b he => h3 (a, b) he, h4⟩

theorem wf_put {m : Memory} {a : Nat} {b : Byte} (hm : wf m = true) (ha : a < 4096) (hb : b ≠ unlisted a) :
    wf (put m a b) = true := by
  induction m with
  | nil => exact wf_cons ha hb (by simp) rfl
  | cons e rest ih =>
    obtain ⟨k, d⟩ := e
    obtain ⟨h1, h2, h3, h4⟩ := lt_of_wf hm
    simp only [put]
    by_cases c1 : a < k
    · rw [if_pos c1]
      refine wf_cons ha hb (fun e he => ?_) hm
      rcases List.mem_cons.1 he with he | he
      · subst he; exact c1
      · exact Nat.lt_trans c1 (h3 e he)
    · rw [if_neg c1]
      by_cases c2 : a = k
      · subst c2; rw [if_pos rfl]; exact wf_cons ha hb h3 h4
      · rw [if_neg c2]
        refine wf_cons h1 h2 (fun e he => ?_) (ih h4)
        rcases mem_put he with he | he
        · subst he; simp only; omega
        · exact h3 e he

theorem wf_erase {m : Memory} {a : Nat} (hm : wf m = true) : wf (erase m a) = true := by
  induction m with
  | nil => rfl
  | cons e rest ih =>
    obtain ⟨k, d⟩ := e
    obtain ⟨h1, h2, h3, h4⟩ := lt_of_wf hm
    simp only [erase]
    split
    · exact h4
    · exact wf_cons h1 h2 (fun e he => h3 e (mem_erase he)) (ih h4)

/-- A write inside the address space keeps the canonical form. -/
theorem wf_write {m : Memory} {a : Nat} {b : Byte} (hm : wf m = true) (ha : a < 4096) : wf (write m a b) = true := by
  unfold write
  split
  · exact wf_erase hm
  · exact wf_put hm ha ‹_›

/-! ## Accesses of several bytes -/

/-- `MemWrite` inside the address space keeps the canonical form (R14). -/
theorem wf_writeBytes (bytes : List Byte) : ∀ {m : Memory} {a : Nat}, wf m = true → a + bytes.length ≤ 4096 →
    wf (writeBytes m a bytes) = true := by
  induction bytes with
  | nil => intro m a hm _; exact hm
  | cons b rest ih =>
    intro m a hm ha
    simp only [List.length_cons] at ha
    exact ih (wf_write hm (by omega)) (by omega)

/-- `MemWrite`: the stored bytes at ascending addresses, every other byte as before (R14, R57). -/
theorem read_writeBytes (bytes : List Byte) : ∀ {m : Memory} {a : Nat}, wf m = true → a + bytes.length ≤ 4096 → ∀ c,
    read (writeBytes m a bytes) c =
      if a ≤ c ∧ c < a + bytes.length then bytes.getD (c - a) 0 else read m c := by
  induction bytes with
  | nil => intro m a _ _ c; rw [writeBytes, if_neg (by simp)]
  | cons b rest ih =>
    intro m a hm ha c
    simp only [List.length_cons] at ha ⊢
    rw [writeBytes, ih (wf_write hm (by omega)) (by omega), read_write _ _ _ _ hm]
    by_cases h1 : c = a
    · subst h1
      simp
    · by_cases h2 : a + 1 ≤ c ∧ c < a + 1 + rest.length
      · rw [if_pos h2, if_pos (by omega), show c - a = (c - (a + 1)) + 1 by omega, List.getD_cons_succ]
      · rw [if_neg h2, if_neg h1, if_neg (by omega)]

@[simp] theorem length_readBytes (m : Memory) (a n : Nat) : (readBytes m a n).length = n := by
  induction n generalizing a with
  | zero => rfl
  | succ n ih => simp [readBytes, ih]

/-- `MemRead`: byte `k` of the list is `mem[a + k]` (R14). -/
theorem getD_readBytes (m : Memory) (a n k : Nat) (h : k < n) : (readBytes m a n).getD k 0 = read m (a + k) := by
  induction n generalizing a k with
  | zero => omega
  | succ n ih =>
    cases k with
    | zero => rfl
    | succ k =>
      rw [readBytes, List.getD_cons_succ, ih _ _ (by omega)]
      congr 1; omega

end Sys2Proof.Machine.Memory
end

