-- ==== Sys2Proof/Laws/State.lean ====
section
/-! SUPPORT. One lemma per field per update of `State`, true by `rfl`, so that no proof unfolds a record update; and what
each update does to a register read. -/

namespace Sys2Proof.Machine.State

variable (s : State)

/-! `setReg` -/

@[simp] theorem setReg_mem (x : Reg) (b : Byte) : (s.setReg x b).mem = s.mem := rfl
@[simp] theorem setReg_V (x : Reg) (b : Byte) : (s.setReg x b).V = s.V.set x.toNat b x.isLt := rfl
@[simp] theorem setReg_I (x : Reg) (b : Byte) : (s.setReg x b).I = s.I := rfl
@[simp] theorem setReg_pc (x : Reg) (b : Byte) : (s.setReg x b).pc = s.pc := rfl
@[simp] theorem setReg_stack (x : Reg) (b : Byte) : (s.setReg x b).stack = s.stack := rfl
@[simp] theorem setReg_sp (x : Reg) (b : Byte) : (s.setReg x b).sp = s.sp := rfl
@[simp] theorem setReg_fb (x : Reg) (b : Byte) : (s.setReg x b).fb = s.fb := rfl
@[simp] theorem setReg_DT (x : Reg) (b : Byte) : (s.setReg x b).DT = s.DT := rfl
@[simp] theorem setReg_ST (x : Reg) (b : Byte) : (s.setReg x b).ST = s.ST := rfl
@[simp] theorem setReg_key (x : Reg) (b : Byte) : (s.setReg x b).key = s.key := rfl
@[simp] theorem setReg_redraw (x : Reg) (b : Byte) : (s.setReg x b).redraw = s.redraw := rfl
@[simp] theorem setReg_event (x : Reg) (b : Byte) : (s.setReg x b).event = s.event := rfl
@[simp] theorem setReg_inputs (x : Reg) (b : Byte) : (s.setReg x b).inputs = s.inputs := rfl
@[simp] theorem setReg_stepIndex (x : Reg) (b : Byte) : (s.setReg x b).stepIndex = s.stepIndex := rfl

/-! `setPc` -/

@[simp] theorem setPc_mem (t : Word) : (s.setPc t).mem = s.mem := rfl
@[simp] theorem setPc_V (t : Word) : (s.setPc t).V = s.V := rfl
@[simp] theorem setPc_I (t : Word) : (s.setPc t).I = s.I := rfl
@[simp] theorem setPc_pc (t : Word) : (s.setPc t).pc = t := rfl
@[simp] theorem setPc_stack (t : Word) : (s.setPc t).stack = s.stack := rfl
@[simp] theorem setPc_sp (t : Word) : (s.setPc t).sp = s.sp := rfl
@[simp] theorem setPc_fb (t : Word) : (s.setPc t).fb = s.fb := rfl
@[simp] theorem setPc_DT (t : Word) : (s.setPc t).DT = s.DT := rfl
@[simp] theorem setPc_ST (t : Word) : (s.setPc t).ST = s.ST := rfl
@[simp] theorem setPc_key (t : Word) : (s.setPc t).key = s.key := rfl
@[simp] theorem setPc_redraw (t : Word) : (s.setPc t).redraw = s.redraw := rfl
@[simp] theorem setPc_event (t : Word) : (s.setPc t).event = s.event := rfl
@[simp] theorem setPc_inputs (t : Word) : (s.setPc t).inputs = s.inputs := rfl
@[simp] theorem setPc_stepIndex (t : Word) : (s.setPc t).stepIndex = s.stepIndex := rfl
@[simp] theorem setPc_reg (t : Word) (r : Reg) : (s.setPc t).reg r = s.reg r := rfl

/-! `setI` -/

@[simp] theorem setI_mem (w : Word) : (s.setI w).mem = s.mem := rfl
@[simp] theorem setI_V (w : Word) : (s.setI w).V = s.V := rfl
@[simp] theorem setI_I (w : Word) : (s.setI w).I = w := rfl
@[simp] theorem setI_pc (w : Word) : (s.setI w).pc = s.pc := rfl
@[simp] theorem setI_stack (w : Word) : (s.setI w).stack = s.stack := rfl
@[simp] theorem setI_sp (w : Word) : (s.setI w).sp = s.sp := rfl
@[simp] theorem setI_fb (w : Word) : (s.setI w).fb = s.fb := rfl
@[simp] theorem setI_DT (w : Word) : (s.setI w).DT = s.DT := rfl
@[simp] theorem setI_ST (w : Word) : (s.setI w).ST = s.ST := rfl
@[simp] theorem setI_key (w : Word) : (s.setI w).key = s.key := rfl
@[simp] theorem setI_redraw (w : Word) : (s.setI w).redraw = s.redraw := rfl
@[simp] theorem setI_event (w : Word) : (s.setI w).event = s.event := rfl
@[simp] theorem setI_inputs (w : Word) : (s.setI w).inputs = s.inputs := rfl
@[simp] theorem setI_stepIndex (w : Word) : (s.setI w).stepIndex = s.stepIndex := rfl
@[simp] theorem setI_reg (w : Word) (r : Reg) : (s.setI w).reg r = s.reg r := rfl

/-! `setMem` -/

@[simp] theorem setMem_mem (m : Memory) : (s.setMem m).mem = m := rfl
@[simp] theorem setMem_V (m : Memory) : (s.setMem m).V = s.V := rfl
@[simp] theorem setMem_I (m : Memory) : (s.setMem m).I = s.I := rfl
@[simp] theorem setMem_pc (m : Memory) : (s.setMem m).pc = s.pc := rfl
@[simp] theorem setMem_stack (m : Memory) : (s.setMem m).stack = s.stack := rfl
@[simp] theorem setMem_sp (m : Memory) : (s.setMem m).sp = s.sp := rfl
@[simp] theorem setMem_fb (m : Memory) : (s.setMem m).fb = s.fb := rfl
@[simp] theorem setMem_DT (m : Memory) : (s.setMem m).DT = s.DT := rfl
@[simp] theorem setMem_ST (m : Memory) : (s.setMem m).ST = s.ST := rfl
@[simp] theorem setMem_key (m : Memory) : (s.setMem m).key = s.key := rfl
@[simp] theorem setMem_redraw (m : Memory) : (s.setMem m).redraw = s.redraw := rfl
@[simp] theorem setMem_event (m : Memory) : (s.setMem m).event = s.event := rfl
@[simp] theorem setMem_inputs (m : Memory) : (s.setMem m).inputs = s.inputs := rfl
@[simp] theorem setMem_stepIndex (m : Memory) : (s.setMem m).stepIndex = s.stepIndex := rfl
@[simp] theorem setMem_reg (m : Memory) (r : Reg) : (s.setMem m).reg r = s.reg r := rfl

/-! `setDT` -/

@[simp] theorem setDT_mem (b : Byte) : (s.setDT b).mem = s.mem := rfl
@[simp] theorem setDT_V (b : Byte) : (s.setDT b).V = s.V := rfl
@[simp] theorem setDT_I (b : Byte) : (s.setDT b).I = s.I := rfl
@[simp] theorem setDT_pc (b : Byte) : (s.setDT b).pc = s.pc := rfl
@[simp] theorem setDT_stack (b : Byte) : (s.setDT b).stack = s.stack := rfl
@[simp] theorem setDT_sp (b : Byte) : (s.setDT b).sp = s.sp := rfl
@[simp] theorem setDT_fb (b : Byte) : (s.setDT b).fb = s.fb := rfl
@[simp] theorem setDT_DT (b : Byte) : (s.setDT b).DT = b := rfl
@[simp] theorem setDT_ST (b : Byte) : (s.setDT b).ST = s.ST := rfl
@[simp] theorem setDT_key (b : Byte) : (s.setDT b).key = s.key := rfl
@[simp] theorem setDT_redraw (b : Byte) : (s.setDT b).redraw = s.redraw := rfl
@[simp] theorem setDT_event (b : Byte) : (s.setDT b).event = s.event := rfl
@[simp] theorem setDT_inputs (b : Byte) : (s.setDT b).inputs = s.inputs := rfl
@[simp] theorem setDT_stepIndex (b : Byte) : (s.setDT b).stepIndex = s.stepIndex := rfl
@[simp] theorem setDT_reg (b : Byte) (r : Reg) : (s.setDT b).reg r = s.reg r := rfl

/-! `setST` -/

@[simp] theorem setST_mem (b : Byte) : (s.setST b).mem = s.mem := rfl
@[simp] theorem setST_V (b : Byte) : (s.setST b).V = s.V := rfl
@[simp] theorem setST_I (b : Byte) : (s.setST b).I = s.I := rfl
@[simp] theorem setST_pc (b : Byte) : (s.setST b).pc = s.pc := rfl
@[simp] theorem setST_stack (b : Byte) : (s.setST b).stack = s.stack := rfl
@[simp] theorem setST_sp (b : Byte) : (s.setST b).sp = s.sp := rfl
@[simp] theorem setST_fb (b : Byte) : (s.setST b).fb = s.fb := rfl
@[simp] theorem setST_DT (b : Byte) : (s.setST b).DT = s.DT := rfl
@[simp] theorem setST_ST (b : Byte) : (s.setST b).ST = b := rfl
@[simp] theorem setST_key (b : Byte) : (s.setST b).key = s.key := rfl
@[simp] theorem setST_redraw (b : Byte) : (s.setST b).redraw = s.redraw := rfl
@[simp] theorem setST_event (b : Byte) : (s.setST b).event = s.event := rfl
@[simp] theorem setST_inputs (b : Byte) : (s.setST b).inputs = s.inputs := rfl
@[simp] theorem setST_stepIndex (b : Byte) : (s.setST b).stepIndex = s.stepIndex := rfl
@[simp] theorem setST_reg (b : Byte) (r : Reg) : (s.setST b).reg r = s.reg r := rfl

/-! `setFb` -/

@[simp] theorem setFb_mem (f : Framebuffer) : (s.setFb f).mem = s.mem := rfl
@[simp] theorem setFb_V (f : Framebuffer) : (s.setFb f).V = s.V := rfl
@[simp] theorem setFb_I (f : Framebuffer) : (s.setFb f).I = s.I := rfl
@[simp] theorem setFb_pc (f : Framebuffer) : (s.setFb f).pc = s.pc := rfl
@[simp] theorem setFb_stack (f : Framebuffer) : (s.setFb f).stack = s.stack := rfl
@[simp] theorem setFb_sp (f : Framebuffer) : (s.setFb f).sp = s.sp := rfl
@[simp] theorem setFb_fb (f : Framebuffer) : (s.setFb f).fb = f := rfl
@[simp] theorem setFb_DT (f : Framebuffer) : (s.setFb f).DT = s.DT := rfl
@[simp] theorem setFb_ST (f : Framebuffer) : (s.setFb f).ST = s.ST := rfl
@[simp] theorem setFb_key (f : Framebuffer) : (s.setFb f).key = s.key := rfl
@[simp] theorem setFb_redraw (f : Framebuffer) : (s.setFb f).redraw = s.redraw := rfl
@[simp] theorem setFb_event (f : Framebuffer) : (s.setFb f).event = s.event := rfl
@[simp] theorem setFb_inputs (f : Framebuffer) : (s.setFb f).inputs = s.inputs := rfl
@[simp] theorem setFb_stepIndex (f : Framebuffer) : (s.setFb f).stepIndex = s.stepIndex := rfl
@[simp] theorem setFb_reg (f : Framebuffer) (r : Reg) : (s.setFb f).reg r = s.reg r := rfl

/-! `setRedraw` -/

@[simp] theorem setRedraw_mem (b : Bool) : (s.setRedraw b).mem = s.mem := rfl
@[simp] theorem setRedraw_V (b : Bool) : (s.setRedraw b).V = s.V := rfl
@[simp] theorem setRedraw_I (b : Bool) : (s.setRedraw b).I = s.I := rfl
@[simp] theorem setRedraw_pc (b : Bool) : (s.setRedraw b).pc = s.pc := rfl
@[simp] theorem setRedraw_stack (b : Bool) : (s.setRedraw b).stack = s.stack := rfl
@[simp] theorem setRedraw_sp (b : Bool) : (s.setRedraw b).sp = s.sp := rfl
@[simp] theorem setRedraw_fb (b : Bool) : (s.setRedraw b).fb = s.fb := rfl
@[simp] theorem setRedraw_DT (b : Bool) : (s.setRedraw b).DT = s.DT := rfl
@[simp] theorem setRedraw_ST (b : Bool) : (s.setRedraw b).ST = s.ST := rfl
@[simp] theorem setRedraw_key (b : Bool) : (s.setRedraw b).key = s.key := rfl
@[simp] theorem setRedraw_redraw (b : Bool) : (s.setRedraw b).redraw = b := rfl
@[simp] theorem setRedraw_event (b : Bool) : (s.setRedraw b).event = s.event := rfl
@[simp] theorem setRedraw_inputs (b : Bool) : (s.setRedraw b).inputs = s.inputs := rfl
@[simp] theorem setRedraw_stepIndex (b : Bool) : (s.setRedraw b).stepIndex = s.stepIndex := rfl
@[simp] theorem setRedraw_reg (b : Bool) (r : Reg) : (s.setRedraw b).reg r = s.reg r := rfl

/-! `setEvent` -/

@[simp] theorem setEvent_mem (e : Option Condition) : (s.setEvent e).mem = s.mem := rfl
@[simp] theorem setEvent_V (e : Option Condition) : (s.setEvent e).V = s.V := rfl
@[simp] theorem setEvent_I (e : Option Condition) : (s.setEvent e).I = s.I := rfl
@[simp] theorem setEvent_pc (e : Option Condition) : (s.setEvent e).pc = s.pc := rfl
@[simp] theorem setEvent_stack (e : Option Condition) : (s.setEvent e).stack = s.stack := rfl
@[simp] theorem setEvent_sp (e : Option Condition) : (s.setEvent e).sp = s.sp := rfl
@[simp] theorem setEvent_fb (e : Option Condition) : (s.setEvent e).fb = s.fb := rfl
@[simp] theorem setEvent_DT (e : Option Condition) : (s.setEvent e).DT = s.DT := rfl
@[simp] theorem setEvent_ST (e : Option Condition) : (s.setEvent e).ST = s.ST := rfl
@[simp] theorem setEvent_key (e : Option Condition) : (s.setEvent e).key = s.key := rfl
@[simp] theorem setEvent_redraw (e : Option Condition) : (s.setEvent e).redraw = s.redraw := rfl
@[simp] theorem setEvent_event (e : Option Condition) : (s.setEvent e).event = e := rfl
@[simp] theorem setEvent_inputs (e : Option Condition) : (s.setEvent e).inputs = s.inputs := rfl
@[simp] theorem setEvent_stepIndex (e : Option Condition) : (s.setEvent e).stepIndex = s.stepIndex := rfl
@[simp] theorem setEvent_reg (e : Option Condition) (r : Reg) : (s.setEvent e).reg r = s.reg r := rfl

/-! `consumeInput` -/

@[simp] theorem consumeInput_mem : s.consumeInput.mem = s.mem := rfl
@[simp] theorem consumeInput_V : s.consumeInput.V = s.V := rfl
@[simp] theorem consumeInput_I : s.consumeInput.I = s.I := rfl
@[simp] theorem consumeInput_pc : s.consumeInput.pc = s.pc := rfl
@[simp] theorem consumeInput_stack : s.consumeInput.stack = s.stack := rfl
@[simp] theorem consumeInput_sp : s.consumeInput.sp = s.sp := rfl
@[simp] theorem consumeInput_fb : s.consumeInput.fb = s.fb := rfl
@[simp] theorem consumeInput_DT : s.consumeInput.DT = s.DT := rfl
@[simp] theorem consumeInput_ST : s.consumeInput.ST = s.ST := rfl
@[simp] theorem consumeInput_key : s.consumeInput.key = s.key := rfl
@[simp] theorem consumeInput_redraw : s.consumeInput.redraw = s.redraw := rfl
@[simp] theorem consumeInput_event : s.consumeInput.event = s.event := rfl
@[simp] theorem consumeInput_inputs : s.consumeInput.inputs = s.inputs.tail := rfl
@[simp] theorem consumeInput_stepIndex : s.consumeInput.stepIndex = s.stepIndex + 1 := rfl
@[simp] theorem consumeInput_reg (r : Reg) : s.consumeInput.reg r = s.reg r := rfl

/-! The timer phase -/

@[simp] theorem timerPhase_mem (tick : Bool) : (timerPhase tick s).mem = s.mem := rfl
@[simp] theorem timerPhase_V (tick : Bool) : (timerPhase tick s).V = s.V := rfl
@[simp] theorem timerPhase_I (tick : Bool) : (timerPhase tick s).I = s.I := rfl
@[simp] theorem timerPhase_pc (tick : Bool) : (timerPhase tick s).pc = s.pc := rfl
@[simp] theorem timerPhase_stack (tick : Bool) : (timerPhase tick s).stack = s.stack := rfl
@[simp] theorem timerPhase_sp (tick : Bool) : (timerPhase tick s).sp = s.sp := rfl
@[simp] theorem timerPhase_fb (tick : Bool) : (timerPhase tick s).fb = s.fb := rfl
@[simp] theorem timerPhase_DT (tick : Bool) : (timerPhase tick s).DT = decay tick s.DT := rfl
@[simp] theorem timerPhase_ST (tick : Bool) : (timerPhase tick s).ST = decay tick s.ST := rfl
@[simp] theorem timerPhase_key (tick : Bool) : (timerPhase tick s).key = s.key := rfl
@[simp] theorem timerPhase_redraw (tick : Bool) : (timerPhase tick s).redraw = s.redraw := rfl
@[simp] theorem timerPhase_event (tick : Bool) : (timerPhase tick s).event = s.event := rfl
@[simp] theorem timerPhase_inputs (tick : Bool) : (timerPhase tick s).inputs = s.inputs := rfl
@[simp] theorem timerPhase_stepIndex (tick : Bool) : (timerPhase tick s).stepIndex = s.stepIndex := rfl

@[simp] theorem timerPhase_reg (tick : Bool) (r : Reg) : (timerPhase tick s).reg r = s.reg r := rfl

/-! Registers -/

/-- Reading a register after a write: the written byte there, the old one elsewhere (R21, none aliases another). -/
theorem reg_setReg (x r : Reg) (b : Byte) : (s.setReg x b).reg r = if r = x then b else s.reg r := by
  unfold State.reg State.setReg
  rw [Vector.getElem_set]
  have hx : x.toNat = r.toNat ↔ r = x := by rw [eq_comm, BitVec.toNat_inj]
  simp [hx]

@[simp] theorem reg_setReg_same (x : Reg) (b : Byte) : (s.setReg x b).reg x = b := by simp [reg_setReg]

theorem reg_setReg_ne {x r : Reg} (h : r ≠ x) (b : Byte) : (s.setReg x b).reg r = s.reg r := by simp [reg_setReg, h]

/-- A register file is its sixteen registers. -/
theorem V_ext {s t : State} (h : ∀ r, s.reg r = t.reg r) : s.V = t.V := by
  refine Vector.ext fun i hi => ?_
  have h1 := h (BitVec.ofNat 4 i)
  have h2 : i % 16 = i := Nat.mod_eq_of_lt hi
  simpa [State.reg, h2] using h1

end Sys2Proof.Machine.State
end

