-- ==== Sys2Proof/Laws/Ops.lean ====
section
/-! SUPPORT. One lemma per shared operation: everything it can do (spec R14, R25, R113, R191 to R193, R203). -/

namespace Sys2Proof.Machine

/-! ## Bounds -/

/-- The bounds check passes exactly when no byte of the access lies above 0xFFF (R14, R54). -/
theorem accessBound_eq_none (a n : Nat) : accessBound a n = none ↔ n = 0 ∨ a + n ≤ 4096 := by
  unfold accessBound
  split
  · simp; omega
  · simp; omega

/-- The bounds check names the highest address of an access that does not fit (R54). -/
theorem accessBound_eq_some (a n : Nat) (c : Condition) :
    accessBound a n = some c ↔ (n ≠ 0 ∧ 4096 < a + n) ∧ c = .memoryOutOfBounds (a + n - 1) := by
  unfold accessBound
  split
  · simp only [Option.some.injEq, eq_comm (b := c)]
    exact ⟨fun h => ⟨by omega, h⟩, fun h => h.2⟩
  · simp; omega

/-! ## The call stack -/

theorem push_eq_none (s : State) (v : Word) : s.push v = none ↔ s.sp.val = 16 := by
  unfold State.push
  have h := s.sp.isLt
  split
  · simp only [reduceCtorEq, false_iff]; omega
  · simp only [true_iff]; omega

/-- A push that succeeds writes entry `sp` and counts it (R25). -/
theorem push_eq_some {s t : State} {v : Word} (h : s.push v = some t) :
    ∃ hs : s.sp.val < 16, t = { s with stack := s.stack.set s.sp.val v hs, sp := ⟨s.sp.val + 1, by omega⟩ } := by
  unfold State.push at h
  split at h
  · exact ⟨‹_›, by simpa using h.symm⟩
  · simp at h

theorem pop_eq_none (s : State) : s.pop = none ↔ s.sp.val = 0 := by
  unfold State.pop
  split
  · simp only [reduceCtorEq, false_iff]; omega
  · simp only [true_iff]; omega

/-- A pop that succeeds yields entry `sp − 1` and counts it no more (R25). -/
theorem pop_eq_some {s t : State} {v : Word} (h : s.pop = some (v, t)) :
    ∃ hs : 0 < s.sp.val, v = s.stack[s.sp.val - 1]'(by omega) ∧ t = { s with sp := ⟨s.sp.val - 1, by omega⟩ } := by
  unfold State.pop at h
  split at h
  · rename_i hs
    simp only [Option.some.injEq, Prod.mk.injEq] at h
    exact ⟨hs, h.1.symm, h.2.symm⟩
  · simp at h

/-! ## Ends of an instruction -/

@[simp] theorem sequential_eq (s : State) : sequential s = .next (s.setPc (s.pc + 2)) := rfl

@[simp] theorem raise_eq (c : Condition) (s : State) : raise c s = .next (s.setEvent (some c)) := rfl

@[simp] theorem jumpTo_eq (t : Word) (s : State) : jumpTo t s = .next (s.setPc t) := rfl

@[simp] theorem skipIf_eq (c : Bool) (s : State) :
    skipIf c s = .next (s.setPc (if c then s.pc + 4 else s.pc + 2)) := rfl

/-- A plain write: the result in `V[x]`, every other register as before, `pc + 2` (R150 to R155). -/
theorem writePlain_eq (x : Reg) (b : Byte) (s : State) :
    writePlain x b s = .next ((s.setReg x b).setPc (s.pc + 2)) := rfl

/-- A flagged write: the flag in `V[15]`, and the result in `V[x]` unless `x = 15` (R163). -/
theorem writeFlagged_eq (x : Reg) (b : Byte) (f : Bool) (s : State) :
    writeFlagged x b f s = .next (((s.setReg x b).setReg Reg.vf (flagByte f)).setPc (s.pc + 2)) := rfl

/-! ## Registers in blocks -/

theorem getElem_loadRegs (bytes : List Byte) : ∀ (v : Vector Byte 16) (k i : Nat) (hi : i < 16),
    (loadRegs v k bytes)[i] = if k ≤ i ∧ i < k + bytes.length then bytes.getD (i - k) 0 else v[i] := by
  induction bytes with
  | nil => intro v k i hi; rw [loadRegs, if_neg (by simp)]
  | cons b rest ih =>
    intro v k i hi
    rw [loadRegs, ih]
    simp only [List.length_cons]
    by_cases h1 : i = k
    · subst h1
      rw [if_neg (by omega), if_pos (by omega)]
      simp
    · by_cases h2 : k + 1 ≤ i ∧ i < k + 1 + rest.length
      · rw [if_pos h2, if_pos (by omega), show i - k = (i - (k + 1)) + 1 by omega, List.getD_cons_succ]
      · rw [if_neg h2, if_neg (by omega), Vector.getElem_setIfInBounds, if_neg (by omega)]

@[simp] theorem length_firstRegs (s : State) (x : Reg) : (s.firstRegs x).length = x.toNat + 1 := by
  have := x.isLt
  simp only [State.firstRegs, List.length_take, Vector.length_toList]
  omega

/-- Byte `k` of the block `FX55` stores is `V[k]` (R174). -/
theorem getD_firstRegs (s : State) (x : Reg) (k : Nat) (hk : k < 16) (h : k ≤ x.toNat) :
    (s.firstRegs x).getD k 0 = s.V[k] := by
  have h1 : k < x.toNat + 1 := by omega
  simp [State.firstRegs, List.getD_eq_getElem?_getD, h1, hk]

/-! ## Pixels -/

theorem pixel_of_not {f : Framebuffer} {x y : Nat} (h : ¬(x < 64 ∧ y < 32)) : pixel f x y = false := by
  simp only [pixel, dif_neg h]

/-- Flipping one pixel of the grid flips it and leaves every other pixel (R191, R193). -/
theorem pixel_flipPixel (f : Framebuffer) (x y c r : Nat) (hx : x < 64) (hy : y < 32) :
    pixel (flipPixel f x y) c r = ((pixel f c r) ^^ decide (c = x ∧ r = y)) := by
  unfold flipPixel
  rw [dif_pos ⟨hx, hy⟩]
  by_cases h : c < 64 ∧ r < 32
  · simp only [pixel, dif_pos h, Vector.getElem_set]
    by_cases hr : y = r
    · subst hr
      by_cases hc : x = c
      · subst hc; simp
      · simp [hc, Ne.symm hc]
    · simp [hr, Ne.symm hr]
  · rw [pixel_of_not h, pixel_of_not h]
    have : ¬(c = x ∧ r = y) := by omega
    simp [this]

/-- Two framebuffers with the same pixels are equal. -/
theorem fb_ext {f g : Framebuffer} (h : ∀ x y, x < 64 → y < 32 → pixel f x y = pixel g x y) : f = g := by
  refine Vector.ext fun y hy => Vector.ext fun x hx => ?_
  simpa [pixel, hx, hy] using h x y hx hy

/-- One sprite bit inside the grid: the pixel is XORed, and the collision grows by a set bit on a set pixel (R193). -/
theorem plotBit_eq (d : Drawing) (x y : Nat) (b : Bool) (hx : x < 64) (hy : y < 32) :
    (∀ c r, pixel (plotBit d x y b).fb c r = (pixel d.fb c r ^^ (b && decide (c = x ∧ r = y)))) ∧
    (plotBit d x y b).collision = (d.collision || (b && pixel d.fb x y)) := by
  cases b
  · simp [plotBit]
  · simp [plotBit, pixel_flipPixel, hx, hy, collides]

/-! ## Keys -/

/-- `KEY_PICK` finds nothing exactly when every latch is 0 (R203). -/
theorem keyPick_eq_none (s : State) : keyPick s = none ↔ ∀ (k : Nat) (h : k < 16), s.key[k] = false := by
  simp only [keyPick, List.findIdx?_eq_none_iff, Vector.mem_toList_iff, Vector.mem_iff_getElem, forall_exists_index]
  constructor
  · intro h k hk; simpa using h _ k hk rfl
  · rintro h b k hk rfl; simpa using h k hk

/-- `KEY_PICK` finds the lowest code whose latch is set (R203). -/
theorem keyPick_eq_some (s : State) (k : Nat) :
    keyPick s = some k ↔ ∃ h : k < 16, s.key[k] = true ∧ ∀ (j : Nat) (hj : j < k), s.key[j]'(by omega) = false := by
  simp only [keyPick, List.findIdx?_eq_some_iff_getElem, Vector.length_toList, Vector.getElem_toList, Bool.not_eq_true]

theorem noKeyDown_iff (s : State) : s.noKeyDown = true ↔ ∀ (k : Nat) (h : k < 16), s.key[k] = false := by
  simp only [State.noKeyDown, List.all_eq_true, Vector.mem_toList_iff, Vector.mem_iff_getElem, Bool.not_eq_true',
    forall_exists_index]
  constructor
  · intro h k hk; exact h _ k hk rfl
  · rintro h b k hk rfl; exact h k hk

/-- The key operand: latch `v` for a code up to 15, nothing above (R200). -/
theorem keyLatch_eq (s : State) (v : Byte) :
    keyLatch s v = if h : v.toNat < 16 then some (s.key[v.toNat]) else none := by
  unfold keyLatch
  split <;> simp_all

/-! ## Fetch and timers -/

/-- The fetch succeeds exactly when both bytes exist (R111). -/
theorem fetch_eq_ok (s : State) (op : Word) :
    fetch s = .ok op ↔ s.pc.toNat ≤ 0xFFE ∧ op = Memory.read s.mem s.pc.toNat ++ Memory.read s.mem (s.pc.toNat + 1) := by
  unfold fetch
  split
  · simp; omega
  · simp only [Except.ok.injEq, eq_comm (b := op)]
    exact ⟨fun h => ⟨by omega, h⟩, fun h => h.2⟩

theorem fetch_eq_error (s : State) (c : Condition) :
    fetch s = .error c ↔ 0xFFE < s.pc.toNat ∧ c = .memoryOutOfBounds (s.pc.toNat + 1) := by
  unfold fetch
  split
  · simp only [Except.error.injEq, eq_comm (b := c)]
    exact ⟨fun h => ⟨by omega, h⟩, fun h => h.2⟩
  · simp; omega

@[simp] theorem fetch_setEvent (s : State) (e : Option Condition) : fetch (s.setEvent e) = fetch s := rfl

@[simp] theorem decay_zero (tick : Bool) : decay tick 0 = 0 := rfl

@[simp] theorem decay_false (v : Byte) : decay false v = v := by unfold decay; split <;> simp_all

/-- A tick lowers a timer by one, stopping at 0 (R235). -/
theorem toNat_decay_true (v : Byte) : (decay true v).toNat = v.toNat - 1 := by
  unfold decay
  split
  · subst_vars; rfl
  · rename_i h
    have h1 : v.toNat ≠ 0 := fun h2 => h (BitVec.eq_of_toNat_eq h2)
    have := v.isLt
    simp only [if_true, BitVec.toNat_sub]
    simp
    omega

end Sys2Proof.Machine
end

