-- ==== Sys2Proof/Laws/Exec.lean ====
section
/-! SUPPORT. What each instruction that tests something can do, said once: the condition it raises, or its effect (spec R130,
R132, R173 to R175, R191, R200, R201, R203). The other meanings have one outcome each, which `rfl` shows. -/

namespace Sys2Proof.Machine

/-! ## The arms of `exec` -/

@[simp] theorem exec_cls (s : State) : exec .cls s = execCls s := rfl

@[simp] theorem exec_ret (s : State) : exec .ret s = execRet s := rfl

@[simp] theorem exec_jp (nnn : BitVec 12) (s : State) : exec (.jp nnn) s = execJp nnn s := rfl

@[simp] theorem exec_call (nnn : BitVec 12) (s : State) : exec (.call nnn) s = execCall nnn s := rfl

@[simp] theorem exec_seImm (x : Reg) (nn : Byte) (s : State) : exec (.seImm x nn) s = execSeImm x nn s := rfl

@[simp] theorem exec_sneImm (x : Reg) (nn : Byte) (s : State) : exec (.sneImm x nn) s = execSneImm x nn s := rfl

@[simp] theorem exec_seReg (x : Reg) (y : Reg) (s : State) : exec (.seReg x y) s = execSeReg x y s := rfl

@[simp] theorem exec_ldImm (x : Reg) (nn : Byte) (s : State) : exec (.ldImm x nn) s = execLdImm x nn s := rfl

@[simp] theorem exec_addImm (x : Reg) (nn : Byte) (s : State) : exec (.addImm x nn) s = execAddImm x nn s := rfl

@[simp] theorem exec_ldReg (x : Reg) (y : Reg) (s : State) : exec (.ldReg x y) s = execLdReg x y s := rfl

@[simp] theorem exec_orReg (x : Reg) (y : Reg) (s : State) : exec (.orReg x y) s = execOr x y s := rfl

@[simp] theorem exec_andReg (x : Reg) (y : Reg) (s : State) : exec (.andReg x y) s = execAnd x y s := rfl

@[simp] theorem exec_xorReg (x : Reg) (y : Reg) (s : State) : exec (.xorReg x y) s = execXor x y s := rfl

@[simp] theorem exec_addReg (x : Reg) (y : Reg) (s : State) : exec (.addReg x y) s = execAddReg x y s := rfl

@[simp] theorem exec_sub (x : Reg) (y : Reg) (s : State) : exec (.sub x y) s = execSub x y s := rfl

@[simp] theorem exec_shr (x : Reg) (y : Reg) (s : State) : exec (.shr x y) s = execShr x y s := rfl

@[simp] theorem exec_subn (x : Reg) (y : Reg) (s : State) : exec (.subn x y) s = execSubn x y s := rfl

@[simp] theorem exec_shl (x : Reg) (y : Reg) (s : State) : exec (.shl x y) s = execShl x y s := rfl

@[simp] theorem exec_sneReg (x : Reg) (y : Reg) (s : State) : exec (.sneReg x y) s = execSneReg x y s := rfl

@[simp] theorem exec_ldIndex (nnn : BitVec 12) (s : State) : exec (.ldIndex nnn) s = execLdIndex nnn s := rfl

@[simp] theorem exec_jpV0 (nnn : BitVec 12) (s : State) : exec (.jpV0 nnn) s = execJpV0 nnn s := rfl

@[simp] theorem exec_rnd (x : Reg) (nn : Byte) (s : State) : exec (.rnd x nn) s = execRnd x nn s := rfl

@[simp] theorem exec_drw (x : Reg) (y : Reg) (n : BitVec 4) (s : State) : exec (.drw x y n) s = execDrw x y n s := rfl

@[simp] theorem exec_skp (x : Reg) (s : State) : exec (.skp x) s = execSkp x s := rfl

@[simp] theorem exec_sknp (x : Reg) (s : State) : exec (.sknp x) s = execSknp x s := rfl

@[simp] theorem exec_ldFromDt (x : Reg) (s : State) : exec (.ldFromDt x) s = execLdFromDt x s := rfl

@[simp] theorem exec_ldKey (x : Reg) (s : State) : exec (.ldKey x) s = execLdKey x s := rfl

@[simp] theorem exec_ldToDt (x : Reg) (s : State) : exec (.ldToDt x) s = execLdToDt x s := rfl

@[simp] theorem exec_ldToSt (x : Reg) (s : State) : exec (.ldToSt x) s = execLdToSt x s := rfl

@[simp] theorem exec_addIndex (x : Reg) (s : State) : exec (.addIndex x) s = execAddIndex x s := rfl

@[simp] theorem exec_ldFont (x : Reg) (s : State) : exec (.ldFont x) s = execLdFont x s := rfl

@[simp] theorem exec_ldBcd (x : Reg) (s : State) : exec (.ldBcd x) s = execLdBcd x s := rfl

@[simp] theorem exec_stRegs (x : Reg) (s : State) : exec (.stRegs x) s = execStRegs x s := rfl

@[simp] theorem exec_ldRegs (x : Reg) (s : State) : exec (.ldRegs x) s = execLdRegs x s := rfl

/-! ## What a meaning can do -/

theorem execRet_cases {s t : State} (h : execRet s = .next t) :
    (s.sp.val = 0 ∧ t = s.setEvent (some .stackUnderflow)) ∨
    ∃ hs : 0 < s.sp.val,
      t = { s with sp := ⟨s.sp.val - 1, by omega⟩, pc := s.stack[s.sp.val - 1]'(by omega) } := by
  unfold execRet at h
  split at h
  · rename_i hp
    exact .inl ⟨(pop_eq_none s).1 hp, (Host.Outcome.next.inj h).symm⟩
  · rename_i v u hp
    obtain ⟨hs, hv, hu⟩ := pop_eq_some hp
    subst hv hu
    exact .inr ⟨hs, (Host.Outcome.next.inj h).symm⟩

theorem execCall_cases {nnn : BitVec 12} {s t : State} (h : execCall nnn s = .next t) :
    (s.sp.val = 16 ∧ t = s.setEvent (some .stackOverflow)) ∨
    ∃ hs : s.sp.val < 16, t = { s with
      stack := s.stack.set s.sp.val (s.pc + 2) hs
      sp := ⟨s.sp.val + 1, by omega⟩
      pc := addressImm nnn } := by
  unfold execCall at h
  split at h
  · rename_i hp
    exact .inl ⟨(push_eq_none s _).1 hp, (Host.Outcome.next.inj h).symm⟩
  · rename_i u hp
    obtain ⟨hs, hu⟩ := push_eq_some hp
    subst hu
    exact .inr ⟨hs, (Host.Outcome.next.inj h).symm⟩

theorem execLdBcd_cases {x : Reg} {s t : State} (h : execLdBcd x s = .next t) :
    (4096 < s.I.toNat + 3 ∧ t = s.setEvent (some (.memoryOutOfBounds (s.I.toNat + 2)))) ∨
    (s.I.toNat + 3 ≤ 4096 ∧
      t = { s with mem := Memory.writeBytes s.mem s.I.toNat (bcdDigits (s.reg x)), pc := s.pc + 2 }) := by
  unfold execLdBcd at h
  split at h
  · rename_i c hb
    obtain ⟨⟨-, h1⟩, rfl⟩ := (accessBound_eq_some _ _ _).1 hb
    exact .inl ⟨h1, (Host.Outcome.next.inj h).symm⟩
  · rename_i hb
    exact .inr ⟨((accessBound_eq_none _ _).1 hb).resolve_left (by decide), (Host.Outcome.next.inj h).symm⟩

theorem execStRegs_cases {x : Reg} {s t : State} (h : execStRegs x s = .next t) :
    (4096 < s.I.toNat + (x.toNat + 1) ∧ t = s.setEvent (some (.memoryOutOfBounds (s.I.toNat + x.toNat)))) ∨
    (s.I.toNat + (x.toNat + 1) ≤ 4096 ∧ t = { s with
      mem := Memory.writeBytes s.mem s.I.toNat (s.firstRegs x)
      I := s.I + BitVec.ofNat 16 (x.toNat + 1)
      pc := s.pc + 2 }) := by
  unfold execStRegs at h
  split at h
  · rename_i c hb
    obtain ⟨⟨-, h1⟩, rfl⟩ := (accessBound_eq_some _ _ _).1 hb
    exact .inl ⟨h1, (Host.Outcome.next.inj h).symm⟩
  · rename_i hb
    exact .inr ⟨((accessBound_eq_none _ _).1 hb).resolve_left (Nat.succ_ne_zero _), (Host.Outcome.next.inj h).symm⟩

theorem execLdRegs_cases {x : Reg} {s t : State} (h : execLdRegs x s = .next t) :
    (4096 < s.I.toNat + (x.toNat + 1) ∧ t = s.setEvent (some (.memoryOutOfBounds (s.I.toNat + x.toNat)))) ∨
    (s.I.toNat + (x.toNat + 1) ≤ 4096 ∧ t = { s with
      V := loadRegs s.V 0 (Memory.readBytes s.mem s.I.toNat (x.toNat + 1))
      I := s.I + BitVec.ofNat 16 (x.toNat + 1)
      pc := s.pc + 2 }) := by
  unfold execLdRegs at h
  split at h
  · rename_i c hb
    obtain ⟨⟨-, h1⟩, rfl⟩ := (accessBound_eq_some _ _ _).1 hb
    exact .inl ⟨h1, (Host.Outcome.next.inj h).symm⟩
  · rename_i hb
    exact .inr ⟨((accessBound_eq_none _ _).1 hb).resolve_left (Nat.succ_ne_zero _), (Host.Outcome.next.inj h).symm⟩

/-- The drawing a `DXYN` in bounds makes (R191). -/
def drawing (x y : Reg) (n : BitVec 4) (s : State) : Drawing :=
  drawRows (s.reg x).toNat (s.reg y).toNat (Memory.readBytes s.mem s.I.toNat n.toNat) ⟨s.fb, false⟩

theorem execDrw_cases {x y : Reg} {n : BitVec 4} {s t : State} (h : execDrw x y n s = .next t) :
    ((n.toNat ≠ 0 ∧ 4096 < s.I.toNat + n.toNat) ∧
      t = s.setEvent (some (.memoryOutOfBounds (s.I.toNat + n.toNat - 1)))) ∨
    ((n.toNat = 0 ∨ s.I.toNat + n.toNat ≤ 4096) ∧ extentOutOfBounds (s.reg x) (s.reg y) n = true ∧
      t = s.setEvent (some (.drawOutOfBounds (s.reg x) (s.reg y) n))) ∨
    ((n.toNat = 0 ∨ s.I.toNat + n.toNat ≤ 4096) ∧ extentOutOfBounds (s.reg x) (s.reg y) n = false ∧ t = { s with
      fb := (drawing x y n s).fb
      V := s.V.set 15 (flagByte (drawing x y n s).collision)
      redraw := true
      pc := s.pc + 2 }) := by
  unfold execDrw at h
  split at h
  · rename_i c hb
    obtain ⟨h1, rfl⟩ := (accessBound_eq_some _ _ _).1 hb
    exact .inl ⟨h1, (Host.Outcome.next.inj h).symm⟩
  · rename_i hb
    have h1 := (accessBound_eq_none _ _).1 hb
    split at h
    · rename_i he
      exact .inr (.inl ⟨h1, he, (Host.Outcome.next.inj h).symm⟩)
    · rename_i he
      exact .inr (.inr ⟨h1, by simpa using he, (Host.Outcome.next.inj h).symm⟩)

theorem execSkp_cases {x : Reg} {s t : State} (h : execSkp x s = .next t) :
    (16 ≤ (s.reg x).toNat ∧ t = s.setEvent (some (.keyIndexOutOfRange (s.reg x)))) ∨
    ∃ hs : (s.reg x).toNat < 16, t = { s with pc := if s.key[(s.reg x).toNat] then s.pc + 4 else s.pc + 2 } := by
  unfold execSkp at h
  rw [keyLatch_eq] at h
  split at h
  · rename_i hk
    split at hk
    · cases hk
    · exact .inl ⟨by omega, (Host.Outcome.next.inj h).symm⟩
  · rename_i p hk
    split at hk
    · cases hk
      exact .inr ⟨‹_›, (Host.Outcome.next.inj h).symm⟩
    · cases hk

theorem execSknp_cases {x : Reg} {s t : State} (h : execSknp x s = .next t) :
    (16 ≤ (s.reg x).toNat ∧ t = s.setEvent (some (.keyIndexOutOfRange (s.reg x)))) ∨
    ∃ hs : (s.reg x).toNat < 16, t = { s with pc := if !s.key[(s.reg x).toNat] then s.pc + 4 else s.pc + 2 } := by
  unfold execSknp at h
  rw [keyLatch_eq] at h
  split at h
  · rename_i hk
    split at hk
    · cases hk
    · exact .inl ⟨by omega, (Host.Outcome.next.inj h).symm⟩
  · rename_i p hk
    split at hk
    · cases hk
      exact .inr ⟨‹_›, (Host.Outcome.next.inj h).symm⟩
    · cases hk

theorem execLdKey_cases {x : Reg} {s t : State} (h : execLdKey x s = .next t) :
    (keyPick s = none ∧ t = s) ∨
    ∃ k, keyPick s = some k ∧ t = (s.setReg x (BitVec.ofNat 8 k)).setPc (s.pc + 2) := by
  unfold execLdKey at h
  split at h
  · exact .inl ⟨‹_›, (Host.Outcome.next.inj h).symm⟩
  · exact .inr ⟨_, ‹_›, (Host.Outcome.next.inj h).symm⟩

end Sys2Proof.Machine
end

