-- ==== Sys2Proof/Laws/Cycle.lean ====
section
/-! SUPPORT. What a step can do, said once (spec R110 to R116). -/

namespace Sys2Proof.Machine

/-- A step that answers a next state was a wait step, or an instruction phase followed by the timer phase. -/
theorem step_next_cases {s t : State} (h : step s = .next t) :
    (isWaitStep s = true ∧ t = (s.setEvent none).consumeInput) ∨
    (isWaitStep s = false ∧ ∃ u, instructionPhase (s.setEvent none) = .next u ∧
      t = (timerPhase s.tickIn u).consumeInput) := by
  have hw : isWaitStep (s.setEvent none) = isWaitStep s := rfl
  simp only [step, cycle, hw] at h
  by_cases hs : isWaitStep s = true
  · rw [if_pos hs] at h
    exact .inl ⟨hs, (Host.Outcome.next.inj h).symm⟩
  · rw [if_neg hs] at h
    cases hu : instructionPhase (s.setEvent none) with
    | next u =>
      rw [hu] at h
      exact .inr ⟨by simpa using hs, u, rfl, (Host.Outcome.next.inj h).symm⟩
    | fault r => exact nomatch r
    | refused r => rw [hu] at h; simp [finishStep] at h

/-- The instruction phase: a condition of the fetch or the decode, or one instruction (R229). -/
theorem instructionPhase_cases {s u : State} (h : instructionPhase s = .next u) :
    (∃ c, fetch s = .error c ∧ u = s.setEvent (some c)) ∨
    (∃ op, fetch s = .ok op ∧ decodeWord op = none ∧ u = s.setEvent (some (.unknownOpcode op))) ∨
    (∃ op i, fetch s = .ok op ∧ decodeWord op = some i ∧ exec i s = .next u) := by
  unfold instructionPhase at h
  cases hf : fetch s with
  | error c =>
    rw [hf] at h
    exact .inl ⟨c, rfl, (Host.Outcome.next.inj h).symm⟩
  | ok op =>
    rw [hf] at h
    simp only at h
    cases hd : decodeWord op with
    | none =>
      rw [hd] at h
      exact .inr (.inl ⟨op, rfl, hd, (Host.Outcome.next.inj h).symm⟩)
    | some i =>
      rw [hd] at h
      exact .inr (.inr ⟨op, i, rfl, hd, h⟩)

@[simp] theorem runSteps_zero (s : State) : runSteps 0 s = .next s := rfl

/-- A run of `n + 1` steps whose first step answers `t` is the run of `n` steps from `t`. -/
theorem runSteps_succ {n : Nat} {s t : State} (h : step s = .next t) : runSteps (n + 1) s = runSteps n t := by
  simp only [runSteps, h]

end Sys2Proof.Machine
end

