-- ==== Sys2Proof/Laws/Decode.lean ====
section
/-! SUPPORT. What the fields of each encoding format read back as (spec R81, R82). -/

namespace Sys2Proof

theorem getLsbD_formatNibbles (a b c d : BitVec 4) (i : Nat) : (formatNibbles a b c d).getLsbD i =
    if i < 4 then d.getLsbD i else if i < 8 then c.getLsbD (i - 4) else if i < 12 then b.getLsbD (i - 8)
    else a.getLsbD (i - 12) := by
  have h : (formatNibbles a b c d).getLsbD i = (a ++ b ++ c ++ d : BitVec (4 + 4 + 4 + 4)).getLsbD i := rfl
  rw [h]
  simp only [BitVec.getLsbD_append, Nat.sub_sub, show i - 4 < 4 ↔ i < 8 by omega, show i - (4 + 4) < 4 ↔ i < 12 by omega]

theorem getLsbD_formatXNN (f : BitVec 4) (x : Reg) (nn : Byte) (i : Nat) : (formatXNN f x nn).getLsbD i =
    if i < 8 then nn.getLsbD i else if i < 12 then x.getLsbD (i - 8) else f.getLsbD (i - 12) := by
  have h : (formatXNN f x nn).getLsbD i = (f ++ x ++ nn : BitVec (4 + 4 + 8)).getLsbD i := rfl
  rw [h]
  simp only [BitVec.getLsbD_append, Nat.sub_sub, show i - 8 < 4 ↔ i < 12 by omega]

theorem getLsbD_formatNNN (f : BitVec 4) (nnn : BitVec 12) (i : Nat) : (formatNNN f nnn).getLsbD i =
    if i < 12 then nnn.getLsbD i else f.getLsbD (i - 12) := by
  have h : (formatNNN f nnn).getLsbD i = (f ++ nnn : BitVec (4 + 12)).getLsbD i := rfl
  rw [h]
  simp only [BitVec.getLsbD_append]

/-- Two vectors with the same bits below their width. -/
theorem extract_eq {w : Word} {start n : Nat} {v : BitVec n} (h : ∀ i, i < n → w.getLsbD (start + i) = v.getLsbD i) :
    w.extractLsb' start n = v := by
  ext i hi
  simpa [hi] using h i hi

section
variable (a b c d f : BitVec 4) (x : Reg) (nn : Byte) (nnn : BitVec 12)

@[simp] theorem family_formatNibbles : Word.family (formatNibbles a b c d) = a :=
  extract_eq fun i hi => by
    rw [getLsbD_formatNibbles, if_neg (by omega), if_neg (by omega), if_neg (by omega)]; congr 1; omega

@[simp] theorem fieldX_formatNibbles : Word.fieldX (formatNibbles a b c d) = b :=
  extract_eq fun i hi => by
    rw [getLsbD_formatNibbles, if_neg (by omega), if_neg (by omega), if_pos (by omega)]; congr 1; omega

@[simp] theorem fieldY_formatNibbles : Word.fieldY (formatNibbles a b c d) = c :=
  extract_eq fun i hi => by
    rw [getLsbD_formatNibbles, if_neg (by omega), if_pos (by omega)]; congr 1; omega

@[simp] theorem fieldN_formatNibbles : Word.fieldN (formatNibbles a b c d) = d :=
  extract_eq fun i hi => by
    rw [getLsbD_formatNibbles, if_pos (by omega)]; congr 1; omega

@[simp] theorem family_formatXNN : Word.family (formatXNN f x nn) = f :=
  extract_eq fun i hi => by
    rw [getLsbD_formatXNN, if_neg (by omega), if_neg (by omega)]; congr 1; omega

@[simp] theorem fieldX_formatXNN : Word.fieldX (formatXNN f x nn) = x :=
  extract_eq fun i hi => by
    rw [getLsbD_formatXNN, if_neg (by omega), if_pos (by omega)]; congr 1; omega

@[simp] theorem fieldNN_formatXNN : Word.fieldNN (formatXNN f x nn) = nn :=
  extract_eq fun i hi => by
    rw [getLsbD_formatXNN, if_pos (by omega)]; congr 1; omega

@[simp] theorem family_formatNNN : Word.family (formatNNN f nnn) = f :=
  extract_eq fun i hi => by
    rw [getLsbD_formatNNN, if_neg (by omega)]; congr 1; omega

@[simp] theorem fieldNNN_formatNNN : Word.fieldNNN (formatNNN f nnn) = nnn :=
  extract_eq fun i hi => by
    rw [getLsbD_formatNNN, if_pos (by omega)]; congr 1; omega

end

/-- A word is its two bytes, high byte first (R56). -/
@[simp] theorem wordOfBytes_split (op : Word) : wordOfBytes (highByte op) (lowByte op) = op := by
  have h : wordOfBytes (highByte op) (lowByte op) = (highByte op ++ lowByte op : BitVec (8 + 8)) := rfl
  rw [h]
  apply BitVec.eq_of_getLsbD_eq
  intro i hi
  simp only [BitVec.getLsbD_append, highByte, lowByte, BitVec.getLsbD_extractLsb']
  split
  · simp_all
  · rw [show 8 + (i - 8) = i by omega]; simp; omega

/-- A word taken apart into its four fields of four bits (R81). -/
theorem formatNibbles_split (op : Word) :
    formatNibbles (Word.family op) (Word.fieldX op) (Word.fieldY op) (Word.fieldN op) = op := by
  apply BitVec.eq_of_getLsbD_eq
  intro i hi
  simp only [getLsbD_formatNibbles, Word.family, Word.fieldX, Word.fieldY, Word.fieldN, BitVec.getLsbD_extractLsb']
  split
  · simp_all
  · split
    · rw [show 4 + (i - 4) = i by omega]; simp; omega
    · split
      · rw [show 8 + (i - 8) = i by omega]; simp; omega
      · rw [show 12 + (i - 12) = i by omega]; simp; omega

/-! ## The rows of the opcode map -/

theorem formatNibbles_inj {a b c d a' b' c' d' : BitVec 4} :
    formatNibbles a b c d = formatNibbles a' b' c' d' ↔ a = a' ∧ b = b' ∧ c = c' ∧ d = d' := by
  constructor
  · intro h
    have h1 := congrArg Word.family h
    have h2 := congrArg Word.fieldX h
    have h3 := congrArg Word.fieldY h
    have h4 := congrArg Word.fieldN h
    simp only [family_formatNibbles, fieldX_formatNibbles, fieldY_formatNibbles, fieldN_formatNibbles] at h1 h2 h3 h4
    exact ⟨h1, h2, h3, h4⟩
  · rintro ⟨rfl, rfl, rfl, rfl⟩; rfl

/-- Masking a word digit by digit. -/
theorem and_formatNibbles (op : Word) (a b c d : BitVec 4) : op &&& formatNibbles a b c d =
    formatNibbles (Word.family op &&& a) (Word.fieldX op &&& b) (Word.fieldY op &&& c) (Word.fieldN op &&& d) := by
  conv => lhs; rw [← formatNibbles_split op]
  apply BitVec.eq_of_getLsbD_eq
  intro i hi
  simp only [BitVec.getLsbD_and, getLsbD_formatNibbles]
  split <;> [rfl; split <;> [rfl; split <;> rfl]]

/-- A row of R85 whose fixed digits are all four. -/
theorem accepts_fixed (m : String) (a b c d : BitVec 4) (op : Word) :
    OpcodeRow.accepts ⟨m, formatNibbles a b c d, formatNibbles 0xF 0xF 0xF 0xF⟩ op =
      decide (Word.family op = a ∧ Word.fieldX op = b ∧ Word.fieldY op = c ∧ Word.fieldN op = d) := by
  have h (v : BitVec 4) : v &&& 0xF = v := BitVec.and_allOnes
  simp only [OpcodeRow.accepts, and_formatNibbles, h, beq_eq_decide, formatNibbles_inj]

/-- A row of R85 whose one fixed digit is the family. -/
theorem accepts_family (m : String) (a : BitVec 4) (op : Word) :
    OpcodeRow.accepts ⟨m, formatNibbles a 0 0 0, formatNibbles 0xF 0 0 0⟩ op = decide (Word.family op = a) := by
  have h (v : BitVec 4) : v &&& 0xF = v := BitVec.and_allOnes
  have h0 (v : BitVec 4) : v &&& 0 = 0 := BitVec.and_zero
  simp only [OpcodeRow.accepts, and_formatNibbles, h, h0, beq_eq_decide, formatNibbles_inj, and_true]

/-- A row of R85 that fixes the family and the low nibble. -/
theorem accepts_low (m : String) (a d : BitVec 4) (op : Word) :
    OpcodeRow.accepts ⟨m, formatNibbles a 0 0 d, formatNibbles 0xF 0 0 0xF⟩ op =
      decide (Word.family op = a ∧ Word.fieldN op = d) := by
  have h (v : BitVec 4) : v &&& 0xF = v := BitVec.and_allOnes
  have h0 (v : BitVec 4) : v &&& 0 = 0 := BitVec.and_zero
  simp only [OpcodeRow.accepts, and_formatNibbles, h, h0, beq_eq_decide, formatNibbles_inj, true_and]

/-- A row of R85 that fixes the family and the low byte. -/
theorem accepts_byte (m : String) (a c d : BitVec 4) (op : Word) :
    OpcodeRow.accepts ⟨m, formatNibbles a 0 c d, formatNibbles 0xF 0 0xF 0xF⟩ op =
      decide (Word.family op = a ∧ Word.fieldY op = c ∧ Word.fieldN op = d) := by
  have h (v : BitVec 4) : v &&& 0xF = v := BitVec.and_allOnes
  have h0 (v : BitVec 4) : v &&& 0 = 0 := BitVec.and_zero
  simp only [OpcodeRow.accepts, and_formatNibbles, h, h0, beq_eq_decide, formatNibbles_inj, true_and]

/-- The rows of R85 digit by digit. -/
theorem opcodeTable_eq : opcodeTable =
    [⟨"CLS", formatNibbles 0 0 0xE 0, formatNibbles 0xF 0xF 0xF 0xF⟩,
     ⟨"RET", formatNibbles 0 0 0xE 0xE, formatNibbles 0xF 0xF 0xF 0xF⟩,
     ⟨"JP", formatNibbles 0x1 0 0 0, formatNibbles 0xF 0 0 0⟩,
     ⟨"CALL", formatNibbles 0x2 0 0 0, formatNibbles 0xF 0 0 0⟩,
     ⟨"SE_IMM", formatNibbles 0x3 0 0 0, formatNibbles 0xF 0 0 0⟩,
     ⟨"SNE_IMM", formatNibbles 0x4 0 0 0, formatNibbles 0xF 0 0 0⟩,
     ⟨"SE_REG", formatNibbles 0x5 0 0 0, formatNibbles 0xF 0 0 0xF⟩,
     ⟨"LD_IMM", formatNibbles 0x6 0 0 0, formatNibbles 0xF 0 0 0⟩,
     ⟨"ADD_IMM", formatNibbles 0x7 0 0 0, formatNibbles 0xF 0 0 0⟩] ++
    [⟨"LD_REG", formatNibbles 0x8 0 0 0, formatNibbles 0xF 0 0 0xF⟩,
     ⟨"OR", formatNibbles 0x8 0 0 0x1, formatNibbles 0xF 0 0 0xF⟩,
     ⟨"AND", formatNibbles 0x8 0 0 0x2, formatNibbles 0xF 0 0 0xF⟩,
     ⟨"XOR", formatNibbles 0x8 0 0 0x3, formatNibbles 0xF 0 0 0xF⟩,
     ⟨"ADD_REG", formatNibbles 0x8 0 0 0x4, formatNibbles 0xF 0 0 0xF⟩,
     ⟨"SUB", formatNibbles 0x8 0 0 0x5, formatNibbles 0xF 0 0 0xF⟩,
     ⟨"SHR", formatNibbles 0x8 0 0 0x6, formatNibbles 0xF 0 0 0xF⟩,
     ⟨"SUBN", formatNibbles 0x8 0 0 0x7, formatNibbles 0xF 0 0 0xF⟩,
     ⟨"SHL", formatNibbles 0x8 0 0 0xE, formatNibbles 0xF 0 0 0xF⟩] ++
    [⟨"SNE_REG", formatNibbles 0x9 0 0 0, formatNibbles 0xF 0 0 0xF⟩,
     ⟨"LD_INDEX", formatNibbles 0xA 0 0 0, formatNibbles 0xF 0 0 0⟩,
     ⟨"JP_V0", formatNibbles 0xB 0 0 0, formatNibbles 0xF 0 0 0⟩,
     ⟨"RND", formatNibbles 0xC 0 0 0, formatNibbles 0xF 0 0 0⟩,
     ⟨"DRW", formatNibbles 0xD 0 0 0, formatNibbles 0xF 0 0 0⟩,
     ⟨"SKP", formatNibbles 0xE 0 0x9 0xE, formatNibbles 0xF 0 0xF 0xF⟩,
     ⟨"SKNP", formatNibbles 0xE 0 0xA 0x1, formatNibbles 0xF 0 0xF 0xF⟩] ++
    [⟨"LD_FROM_DT", formatNibbles 0xF 0 0 0x7, formatNibbles 0xF 0 0xF 0xF⟩,
     ⟨"LD_KEY", formatNibbles 0xF 0 0 0xA, formatNibbles 0xF 0 0xF 0xF⟩,
     ⟨"LD_TO_DT", formatNibbles 0xF 0 0x1 0x5, formatNibbles 0xF 0 0xF 0xF⟩,
     ⟨"LD_TO_ST", formatNibbles 0xF 0 0x1 0x8, formatNibbles 0xF 0 0xF 0xF⟩,
     ⟨"ADD_INDEX", formatNibbles 0xF 0 0x1 0xE, formatNibbles 0xF 0 0xF 0xF⟩,
     ⟨"LD_FONT", formatNibbles 0xF 0 0x2 0x9, formatNibbles 0xF 0 0xF 0xF⟩,
     ⟨"LD_BCD", formatNibbles 0xF 0 0x3 0x3, formatNibbles 0xF 0 0xF 0xF⟩,
     ⟨"ST_REGS", formatNibbles 0xF 0 0x5 0x5, formatNibbles 0xF 0 0xF 0xF⟩,
     ⟨"LD_REGS", formatNibbles 0xF 0 0x6 0x5, formatNibbles 0xF 0 0xF 0xF⟩] := rfl

/-- An `XNN` word is its four nibbles (R81). -/
theorem formatXNN_eq (f : BitVec 4) (x : Reg) (nn : Byte) :
    formatXNN f x nn = formatNibbles f x (nn.extractLsb' 4 4) (nn.extractLsb' 0 4) := by
  apply BitVec.eq_of_getLsbD_eq
  intro i hi
  simp only [getLsbD_formatXNN, getLsbD_formatNibbles, BitVec.getLsbD_extractLsb']
  by_cases h1 : i < 4
  · simp [h1, show i < 8 by omega]
  · by_cases h2 : i < 8
    · simp [h1, h2, show i - 4 < 4 by omega, show 4 + (i - 4) = i by omega]
    · simp [h1, h2]

/-- An `NNN` word is its four nibbles (R81). -/
theorem formatNNN_eq (f : BitVec 4) (nnn : BitVec 12) : formatNNN f nnn =
    formatNibbles f (nnn.extractLsb' 8 4) (nnn.extractLsb' 4 4) (nnn.extractLsb' 0 4) := by
  apply BitVec.eq_of_getLsbD_eq
  intro i hi
  simp only [getLsbD_formatNNN, getLsbD_formatNibbles, BitVec.getLsbD_extractLsb']
  by_cases h1 : i < 4
  · simp [h1, show i < 12 by omega]
  · by_cases h2 : i < 8
    · simp [h1, h2, show i < 12 by omega, show i - 4 < 4 by omega, show 4 + (i - 4) = i by omega]
    · by_cases h3 : i < 12
      · simp [h1, h2, h3, show i - 8 < 4 by omega, show 8 + (i - 8) = i by omega]
      · simp [h1, h2, h3]

end Sys2Proof
end

