-- ==== Sys2Proof/Laws/PerInstr.lean ====
section
/-! SUPPORT. Statements made of every instruction as syntax, one lemma per constructor. -/

namespace Sys2Proof.Laws.EncodingInTable

/-- The row of R85 under the instruction's mnemonic accepts the word the encoder writes. -/
def Statement (i : Instr) : Prop :=
  ∃ r ∈ opcodeTable, r.mnemonic = i.mnemonic ∧ r.accepts (encode i) = true

theorem cls : Statement .cls :=
  ⟨_, List.mem_of_getElem? (i := 0) rfl, rfl, (accepts_fixed _ 0x0 0x0 0xE 0x0 _).trans (by simp [encode])⟩

theorem ret : Statement .ret :=
  ⟨_, List.mem_of_getElem? (i := 1) rfl, rfl, (accepts_fixed _ 0x0 0x0 0xE 0xE _).trans (by simp [encode])⟩

theorem jp (nnn : BitVec 12) : Statement (.jp nnn) :=
  ⟨_, List.mem_of_getElem? (i := 2) rfl, rfl, (accepts_family _ 0x1 _).trans (by simp [encode])⟩

theorem call (nnn : BitVec 12) : Statement (.call nnn) :=
  ⟨_, List.mem_of_getElem? (i := 3) rfl, rfl, (accepts_family _ 0x2 _).trans (by simp [encode])⟩

theorem seImm (x : Reg) (nn : Byte) : Statement (.seImm x nn) :=
  ⟨_, List.mem_of_getElem? (i := 4) rfl, rfl, (accepts_family _ 0x3 _).trans (by simp [encode])⟩

theorem sneImm (x : Reg) (nn : Byte) : Statement (.sneImm x nn) :=
  ⟨_, List.mem_of_getElem? (i := 5) rfl, rfl, (accepts_family _ 0x4 _).trans (by simp [encode])⟩

theorem seReg (x y : Reg) : Statement (.seReg x y) :=
  ⟨_, List.mem_of_getElem? (i := 6) rfl, rfl, (accepts_low _ 0x5 0x0 _).trans (by simp [encode])⟩

theorem ldImm (x : Reg) (nn : Byte) : Statement (.ldImm x nn) :=
  ⟨_, List.mem_of_getElem? (i := 7) rfl, rfl, (accepts_family _ 0x6 _).trans (by simp [encode])⟩

theorem addImm (x : Reg) (nn : Byte) : Statement (.addImm x nn) :=
  ⟨_, List.mem_of_getElem? (i := 8) rfl, rfl, (accepts_family _ 0x7 _).trans (by simp [encode])⟩

theorem ldReg (x y : Reg) : Statement (.ldReg x y) :=
  ⟨_, List.mem_of_getElem? (i := 9) rfl, rfl, (accepts_low _ 0x8 0x0 _).trans (by simp [encode])⟩

theorem orReg (x y : Reg) : Statement (.orReg x y) :=
  ⟨_, List.mem_of_getElem? (i := 10) rfl, rfl, (accepts_low _ 0x8 0x1 _).trans (by simp [encode])⟩

theorem andReg (x y : Reg) : Statement (.andReg x y) :=
  ⟨_, List.mem_of_getElem? (i := 11) rfl, rfl, (accepts_low _ 0x8 0x2 _).trans (by simp [encode])⟩

theorem xorReg (x y : Reg) : Statement (.xorReg x y) :=
  ⟨_, List.mem_of_getElem? (i := 12) rfl, rfl, (accepts_low _ 0x8 0x3 _).trans (by simp [encode])⟩

theorem addReg (x y : Reg) : Statement (.addReg x y) :=
  ⟨_, List.mem_of_getElem? (i := 13) rfl, rfl, (accepts_low _ 0x8 0x4 _).trans (by simp [encode])⟩

theorem sub (x y : Reg) : Statement (.sub x y) :=
  ⟨_, List.mem_of_getElem? (i := 14) rfl, rfl, (accepts_low _ 0x8 0x5 _).trans (by simp [encode])⟩

theorem shr (x y : Reg) : Statement (.shr x y) :=
  ⟨_, List.mem_of_getElem? (i := 15) rfl, rfl, (accepts_low _ 0x8 0x6 _).trans (by simp [encode])⟩

theorem subn (x y : Reg) : Statement (.subn x y) :=
  ⟨_, List.mem_of_getElem? (i := 16) rfl, rfl, (accepts_low _ 0x8 0x7 _).trans (by simp [encode])⟩

theorem shl (x y : Reg) : Statement (.shl x y) :=
  ⟨_, List.mem_of_getElem? (i := 17) rfl, rfl, (accepts_low _ 0x8 0xE _).trans (by simp [encode])⟩

theorem sneReg (x y : Reg) : Statement (.sneReg x y) :=
  ⟨_, List.mem_of_getElem? (i := 18) rfl, rfl, (accepts_low _ 0x9 0x0 _).trans (by simp [encode])⟩

theorem ldIndex (nnn : BitVec 12) : Statement (.ldIndex nnn) :=
  ⟨_, List.mem_of_getElem? (i := 19) rfl, rfl, (accepts_family _ 0xA _).trans (by simp [encode])⟩

theorem jpV0 (nnn : BitVec 12) : Statement (.jpV0 nnn) :=
  ⟨_, List.mem_of_getElem? (i := 20) rfl, rfl, (accepts_family _ 0xB _).trans (by simp [encode])⟩

theorem rnd (x : Reg) (nn : Byte) : Statement (.rnd x nn) :=
  ⟨_, List.mem_of_getElem? (i := 21) rfl, rfl, (accepts_family _ 0xC _).trans (by simp [encode])⟩

theorem drw (x y : Reg) (n : BitVec 4) : Statement (.drw x y n) :=
  ⟨_, List.mem_of_getElem? (i := 22) rfl, rfl, (accepts_family _ 0xD _).trans (by simp [encode])⟩

theorem skp (x : Reg) : Statement (.skp x) :=
  ⟨_, List.mem_of_getElem? (i := 23) rfl, rfl, (accepts_byte _ 0xE 0x9 0xE _).trans (by simp [encode, formatXNN_eq])⟩

theorem sknp (x : Reg) : Statement (.sknp x) :=
  ⟨_, List.mem_of_getElem? (i := 24) rfl, rfl, (accepts_byte _ 0xE 0xA 0x1 _).trans (by simp [encode, formatXNN_eq])⟩

theorem ldFromDt (x : Reg) : Statement (.ldFromDt x) :=
  ⟨_, List.mem_of_getElem? (i := 25) rfl, rfl, (accepts_byte _ 0xF 0x0 0x7 _).trans (by simp [encode, formatXNN_eq])⟩

theorem ldKey (x : Reg) : Statement (.ldKey x) :=
  ⟨_, List.mem_of_getElem? (i := 26) rfl, rfl, (accepts_byte _ 0xF 0x0 0xA _).trans (by simp [encode, formatXNN_eq])⟩

theorem ldToDt (x : Reg) : Statement (.ldToDt x) :=
  ⟨_, List.mem_of_getElem? (i := 27) rfl, rfl, (accepts_byte _ 0xF 0x1 0x5 _).trans (by simp [encode, formatXNN_eq])⟩

theorem ldToSt (x : Reg) : Statement (.ldToSt x) :=
  ⟨_, List.mem_of_getElem? (i := 28) rfl, rfl, (accepts_byte _ 0xF 0x1 0x8 _).trans (by simp [encode, formatXNN_eq])⟩

theorem addIndex (x : Reg) : Statement (.addIndex x) :=
  ⟨_, List.mem_of_getElem? (i := 29) rfl, rfl, (accepts_byte _ 0xF 0x1 0xE _).trans (by simp [encode, formatXNN_eq])⟩

theorem ldFont (x : Reg) : Statement (.ldFont x) :=
  ⟨_, List.mem_of_getElem? (i := 30) rfl, rfl, (accepts_byte _ 0xF 0x2 0x9 _).trans (by simp [encode, formatXNN_eq])⟩

theorem ldBcd (x : Reg) : Statement (.ldBcd x) :=
  ⟨_, List.mem_of_getElem? (i := 31) rfl, rfl, (accepts_byte _ 0xF 0x3 0x3 _).trans (by simp [encode, formatXNN_eq])⟩

theorem stRegs (x : Reg) : Statement (.stRegs x) :=
  ⟨_, List.mem_of_getElem? (i := 32) rfl, rfl, (accepts_byte _ 0xF 0x5 0x5 _).trans (by simp [encode, formatXNN_eq])⟩

theorem ldRegs (x : Reg) : Statement (.ldRegs x) :=
  ⟨_, List.mem_of_getElem? (i := 33) rfl, rfl, (accepts_byte _ 0xF 0x6 0x5 _).trans (by simp [encode, formatXNN_eq])⟩

end Sys2Proof.Laws.EncodingInTable
end

