-- ==== Sys2Proof/Tests/Slice0.lean ====
section
/-! SUPPORT. Tests and witnesses. Expected values come from the spec's test vectors (95_test_vectors.md, V-… and X…) or its
rules; a witness shows one concrete case that meets all hypotheses of a statement together. -/

open Sys2Proof Sys2Proof.Machine Sys2Proof.Claims

namespace Sys2Proof.Tests

/-- The reset state with the listed registers set. -/
def withRegs (regs : List (Reg × Byte)) : State := regs.foldl (fun s p => s.setReg p.1 p.2) State.reset

/-- `s` with instruction word `op` where the next step fetches. -/
def at' (op : Nat) (s : State) : State := s.withFetchWord 16 op

/-- `s` with the bytes at address `a` upward. -/
def bytesAt (a : Nat) (bytes : List Byte) (s : State) : State := { s with mem := Memory.writeBytes s.mem a bytes }

/-- `s` with the latches of the listed codes set. -/
def pressing (codes : List Nat) (s : State) : State :=
  codes.foldl (fun s k => { s with key := s.key.setIfInBounds k true }) s

/-- The result is a next state with property `p`. -/
def endsIn (r : Result) (p : State → Bool) : Bool :=
  match r with
  | .next t => p t
  | .fault _ => false
  | .refused _ => false

theorem next_of_endsIn {r : Result} {p : State → Bool} (h : endsIn r p = true) : ∃ t, r = .next t ∧ p t = true := by
  cases r with
  | next t => exact ⟨t, rfl, h⟩
  | fault x => cases h
  | refused x => cases h

/-- One step with `tick = 0`, `rnd = 0`, as the spec's vectors have it unless they say otherwise. -/
def quiet (s : State) : Result := stepWith false 0 s

/-! ## Well-formedness: each check refuses an ill-formed term -/

/-- 0x5121 is Unknown (V-E7), 0x0000 too (V-E3), 0xF01F too (V-E15). -/
theorem test_wordWellFormed_refuses :
    wordWellFormed 0x5121 = false ∧ wordWellFormed 0x0000 = false ∧ wordWellFormed 0xF01F = false := by decide

theorem test_wordWellFormed_accepts : wordWellFormed 0x5120 = true ∧ wordWellFormed 0xD000 = true := by decide

/-- 3585 bytes are too large, 3584 are not (R228). -/
theorem test_programWellFormed :
    programWellFormed (List.replicate 3585 0) = false ∧ programWellFormed (List.replicate 3584 0) = true := by
  simp only [programWellFormed, List.length_replicate]; decide

theorem test_keyCodeWellFormed : keyCodeWellFormed 16 = false ∧ keyCodeWellFormed 15 = true := by decide

/-! ## Decoding: words written out digit by digit from the formats of R81 and the patterns of R85 -/

/-- V-E1, V-E2. -/
theorem test_decode_family_0 :
    decodeWord 0b0000_0000_1110_0000 = some .cls ∧ decodeWord 0b0000_0000_1110_1110 = some .ret := by decide

/-- V-E4: there is no `0NNN`. -/
theorem test_decode_no_0NNN : [0x00E1, 0x00EF, 0x01E0, 0x0200, 0x0FFF].all (fun w => (decodeWord w).isNone) = true := by
  decide

/-- V-E5, V-E17 and R82. -/
theorem test_decode_addresses :
    decodeWord 0b0001_1111_1111_1111 = some (.jp 0xFFF) ∧ decodeWord 0b0010_1010_1011_1100 = some (.call 0xABC) ∧
    decodeWord 0b1010_0011_0000_0000 = some (.ldIndex 0x300) ∧ decodeWord 0b1011_1111_1111_1111 = some (.jpV0 0xFFF) := by
  decide

/-- V-E6, V-E8 and V-C11, V-C13. -/
theorem test_decode_skips :
    decodeWord 0b0011_0011_0100_0010 = some (.seImm 3 0x42) ∧ decodeWord 0b0100_0011_0100_0010 = some (.sneImm 3 0x42) ∧
    decodeWord 0b0101_0001_0010_0000 = some (.seReg 1 2) ∧ decodeWord 0b1001_1010_1011_0000 = some (.sneReg 10 11) := by
  decide

/-- V-A1, V-A4, V-A41. -/
theorem test_decode_immediates :
    decodeWord 0b0110_0011_0010_1010 = some (.ldImm 3 0x2A) ∧ decodeWord 0b0111_0101_1111_1111 = some (.addImm 5 0xFF) ∧
    decodeWord 0b1100_0011_0000_1111 = some (.rnd 3 0x0F) := by decide

/-- V-E10. -/
theorem test_decode_family_8 :
    decodeWord 0x8AB0 = some (.ldReg 10 11) ∧ decodeWord 0x8AB1 = some (.orReg 10 11) ∧
    decodeWord 0x8AB2 = some (.andReg 10 11) ∧ decodeWord 0x8AB3 = some (.xorReg 10 11) ∧
    decodeWord 0x8AB4 = some (.addReg 10 11) ∧ decodeWord 0x8AB5 = some (.sub 10 11) ∧
    decodeWord 0b1000_1010_1011_0110 = some (.shr 10 11) ∧ decodeWord 0x8AB7 = some (.subn 10 11) ∧
    decodeWord 0x8ABE = some (.shl 10 11) := by decide

/-- V-E11. -/
theorem test_decode_family_8_unknown :
    [0x8AB8, 0x8AB9, 0x8ABA, 0x8ABB, 0x8ABC, 0x8ABD, 0x8ABF].all (fun w => (decodeWord w).isNone) = true := by decide

/-- R191 and V-E16. -/
theorem test_decode_draw :
    decodeWord 0b1101_0001_0010_0101 = some (.drw 1 2 5) ∧ decodeWord 0xD000 = some (.drw 0 0 0) := by decide

/-- V-E12, V-E13. -/
theorem test_decode_family_E :
    decodeWord 0b1110_0001_1001_1110 = some (.skp 1) ∧ decodeWord 0xE1A1 = some (.sknp 1) ∧
    [0xE000, 0xE19F, 0xE1A0, 0xE1FF].all (fun w => (decodeWord w).isNone) = true := by decide

/-- V-E14. -/
theorem test_decode_family_F :
    decodeWord 0xF507 = some (.ldFromDt 5) ∧ decodeWord 0b1111_0101_0000_1010 = some (.ldKey 5) ∧
    decodeWord 0xF515 = some (.ldToDt 5) ∧ decodeWord 0xF518 = some (.ldToSt 5) ∧
    decodeWord 0xF51E = some (.addIndex 5) ∧ decodeWord 0xF529 = some (.ldFont 5) ∧
    decodeWord 0xF533 = some (.ldBcd 5) ∧ decodeWord 0xF555 = some (.stRegs 5) ∧
    decodeWord 0xF565 = some (.ldRegs 5) := by decide

/-- V-E15. -/
theorem test_decode_family_F_unknown :
    [0xF000, 0xF500, 0xF575, 0xF585, 0xF5FF, 0xF01F].all (fun w => (decodeWord w).isNone) = true := by decide

/-- A word is stored high byte first (R56), so the decoder on bytes reads 0x63 before 0x2A. -/
theorem test_decodeBytes : decodeBytes [0x63, 0x2A, 0x07] = .ok (.ldImm 3 0x2A, [0x07]) ∧
    decodeBytes [0x63] = .error .truncated ∧ decodeBytes [0x51, 0x21] = .error (.unknown 0x5121) := ⟨rfl, rfl, rfl⟩

theorem test_decodeTableWord : decodeTableWord 16 0xF533 = some (.ldBcd 5) ∧ decodeTableWord 16 0x5121 = none := by decide

/-! ## The step -/

/-- V-S9: an Unknown word, and the timers count all the same. -/
theorem test_unknown_word : endsIn (stepWith true 0 (at' 0x0000 { State.reset with DT := 3, ST := 2 })) (fun t =>
    t.event == some (.unknownOpcode 0x0000) && t.pc == 0x200 && t.DT == 2 && t.ST == 1) = true := by decide

/-- V-S3: an odd `pc`, and big-endian fetch. -/
theorem test_odd_pc : endsIn (quiet (bytesAt 0x201 [0x60, 0x07] { State.reset with pc := 0x201 })) (fun t =>
    t.reg 0 == 7 && t.pc == 0x203) = true := by decide

/-- V-S6. -/
theorem test_fetch_bound : endsIn (quiet { State.reset with pc := 0xFFF }) (fun t =>
    t.event == some (.memoryOutOfBounds 0x1000) && t.pc == 0xFFF) = true := by decide

/-- V-S11: a timer stops at 0. -/
theorem test_timer_stops_at_zero : endsIn (stepWith true 0 (at' 0x1200 { State.reset with DT := 1 })) (fun t =>
    t.DT == 0 && t.ST == 0 && t.pc == 0x200) = true := by decide

/-! ## Control flow -/

/-- V-C1. -/
theorem test_ret_underflow : endsIn (quiet (at' 0x00EE State.reset)) (fun t =>
    t.event == some .stackUnderflow && t.pc == 0x200 && t.sp == 0) = true := by decide

/-- V-C3. -/
theorem test_ret_full_stack :
    endsIn (quiet (at' 0x00EE { State.reset with sp := 16, stack := State.reset.stack.set 15 0x0ABC })) (fun t =>
      t.sp == 15 && t.pc == 0x0ABC) = true := by decide

/-- V-C6. -/
theorem test_jp : endsIn (quiet (at' 0x1FFF State.reset)) (fun t => t.pc == 0xFFF && t.event == none) = true := by decide

/-- V-C8. -/
theorem test_call_last_entry : endsIn (quiet (at' 0x2ABC { State.reset with sp := 15 })) (fun t =>
    t.stack[15] == 0x0202 && t.sp == 16 && t.pc == 0x0ABC) = true := by decide

/-- V-C9. -/
theorem test_call_overflow : endsIn (quiet (at' 0x2ABC { State.reset with sp := 16 })) (fun t =>
    t.event == some .stackOverflow && t.pc == 0x200 && t.sp == 16) = true := by decide

/-- V-C11. -/
theorem test_seImm_taken : endsIn (quiet (at' 0x3342 (withRegs [(3, 0x42)]))) (fun t => t.pc == 0x204) = true := by decide

/-- V-C12. -/
theorem test_seImm_not_taken : endsIn (quiet (at' 0x3342 (withRegs [(3, 0x43)]))) (fun t => t.pc == 0x202) = true := by
  decide

/-- V-C13. -/
theorem test_sneImm_not_taken : endsIn (quiet (at' 0x4342 (withRegs [(3, 0x42)]))) (fun t => t.pc == 0x202) = true := by
  decide

/-- V-C14. -/
theorem test_sneImm_taken : endsIn (quiet (at' 0x4342 (withRegs [(3, 0x43)]))) (fun t => t.pc == 0x204) = true := by decide

/-- V-C16. -/
theorem test_seReg_taken : endsIn (quiet (at' 0x5120 (withRegs [(1, 0x7F), (2, 0x7F)]))) (fun t => t.pc == 0x204) = true := by
  decide

/-- V-C17. -/
theorem test_seReg_not_taken :
    endsIn (quiet (at' 0x5120 (withRegs [(1, 0x7F), (2, 0x80)]))) (fun t => t.pc == 0x202) = true := by decide

/-- V-C19. -/
theorem test_sneReg_taken : endsIn (quiet (at' 0x9120 (withRegs [(1, 1), (2, 2)]))) (fun t => t.pc == 0x204) = true := by
  decide

/-- V-C20. -/
theorem test_sneReg_not_taken : endsIn (quiet (at' 0x9120 (withRegs [(1, 1), (2, 1)]))) (fun t => t.pc == 0x202) = true := by
  decide

/-- V-C23. -/
theorem test_jpV0_reach : endsIn (quiet (at' 0xBFFF (withRegs [(0, 0xFF)]))) (fun t => t.pc == 0x10FE) = true := by decide

/-- V-C24: the offset is `V[0]`, not `V[2]`. -/
theorem test_jpV0_register :
    endsIn (quiet (at' 0xB200 (withRegs [(0, 0x01), (2, 0x55)]))) (fun t => t.pc == 0x0201) = true := by decide

/-! ## Load and ALU -/

/-- V-A1. -/
theorem test_ldImm : endsIn (quiet (at' 0x632A State.reset)) (fun t => t.reg 3 == 0x2A && t.pc == 0x202) = true := by decide

/-- V-A3. -/
theorem test_addImm_wraps : endsIn (quiet (at' 0x7004 (withRegs [(0, 0xFF), (15, 1)]))) (fun t =>
    t.reg 0 == 0x03 && t.reg 15 == 1) = true := by decide

/-- V-A6. -/
theorem test_ldReg : endsIn (quiet (at' 0x8120 (withRegs [(2, 0x5A)]))) (fun t => t.reg 1 == 0x5A && t.reg 2 == 0x5A) = true := by
  decide

/-- V-A7. -/
theorem test_or : endsIn (quiet (at' 0x8121 (withRegs [(1, 0x0F), (2, 0xF0), (15, 0xAA)]))) (fun t =>
    t.reg 1 == 0xFF && t.reg 15 == 0xAA) = true := by decide

/-- V-A9. -/
theorem test_and : endsIn (quiet (at' 0x8122 (withRegs [(1, 0x3C), (2, 0x0F)]))) (fun t => t.reg 1 == 0x0C) = true := by
  decide

/-- V-A10. -/
theorem test_xor : endsIn (quiet (at' 0x8123 (withRegs [(1, 0xFF), (2, 0x0F)]))) (fun t => t.reg 1 == 0xF0) = true := by
  decide

/-- V-A14: a sum of 255 is no carry. -/
theorem test_addReg_no_carry : endsIn (quiet (at' 0x8124 (withRegs [(1, 0xFE), (2, 0x01), (15, 1)]))) (fun t =>
    t.reg 1 == 0xFF && t.reg 15 == 0) = true := by decide

/-- V-A16: the flag overwrites the result in `V[15]`. -/
theorem test_addReg_vf_destination : endsIn (quiet (at' 0x8FE4 (withRegs [(15, 0xFF), (14, 0x02)]))) (fun t =>
    t.reg 15 == 0x01 && t.reg 14 == 0x02) = true := by decide

/-- V-A20. -/
theorem test_sub_borrow : endsIn (quiet (at' 0x8125 (withRegs [(1, 0x10), (2, 0x20)]))) (fun t =>
    t.reg 1 == 0xF0 && t.reg 15 == 0) = true := by decide

/-- V-A21: equality is no borrow. -/
theorem test_sub_equal : endsIn (quiet (at' 0x8125 (withRegs [(1, 0x33), (2, 0x33)]))) (fun t =>
    t.reg 1 == 0x00 && t.reg 15 == 1) = true := by decide

/-- V-A28: `Y` is not used. -/
theorem test_shr : endsIn (quiet (at' 0x8126 (withRegs [(1, 0xFF), (2, 0x00)]))) (fun t =>
    t.reg 1 == 0x7F && t.reg 15 == 1 && t.reg 2 == 0x00) = true := by decide

/-- V-A27. -/
theorem test_shr_even : endsIn (quiet (at' 0x8106 (withRegs [(1, 0x04), (15, 1)]))) (fun t =>
    t.reg 1 == 0x02 && t.reg 15 == 0) = true := by decide

/-- V-A31. -/
theorem test_subn : endsIn (quiet (at' 0x8127 (withRegs [(1, 0x10), (2, 0x20)]))) (fun t =>
    t.reg 1 == 0x10 && t.reg 15 == 1 && t.reg 2 == 0x20) = true := by decide

/-- V-A34. -/
theorem test_subn_borrow : endsIn (quiet (at' 0x8127 (withRegs [(1, 0x01), (2, 0x00)]))) (fun t =>
    t.reg 1 == 0xFF && t.reg 15 == 0) = true := by decide

/-- V-A36. -/
theorem test_shl : endsIn (quiet (at' 0x810E (withRegs [(1, 0x81)]))) (fun t => t.reg 1 == 0x02 && t.reg 15 == 1) = true := by
  decide

/-- V-A38: `Y` is not used. -/
theorem test_shl_ignores_y : endsIn (quiet (at' 0x812E (withRegs [(1, 0xFF), (2, 0x00)]))) (fun t =>
    t.reg 1 == 0xFE && t.reg 15 == 1 && t.reg 2 == 0x00) = true := by decide

/-- V-A41. -/
theorem test_rnd : endsIn (stepWith false 0xA7 (at' 0xC30F State.reset)) (fun t => t.reg 3 == 0x07 && t.pc == 0x202) = true := by
  decide

/-- V-A44. -/
theorem test_rnd_vf : endsIn (stepWith false 0xFF (at' 0xCFF0 (withRegs [(15, 9)]))) (fun t => t.reg 15 == 0xF0) = true := by
  decide

/-! ## Index and memory -/

/-- V-M2. -/
theorem test_ldIndex : endsIn (quiet (at' 0xAFFF State.reset)) (fun t => t.I == 0x0FFF && t.pc == 0x202) = true := by decide

/-- V-M4. -/
theorem test_addIndex : endsIn (quiet (at' 0xF01E { withRegs [(0, 0x01)] with I := 0x0FFF })) (fun t =>
    t.I == 0x1000 && t.reg 15 == 0 && t.event == none) = true := by decide

/-- V-M5. -/
theorem test_addIndex_wraps :
    endsIn (quiet (at' 0xF01E { withRegs [(0, 0x02)] with I := 0xFFFF })) (fun t => t.I == 0x0001) = true := by decide

/-- V-M8. -/
theorem test_ldFont : endsIn (quiet (at' 0xF029 (withRegs [(0, 0x0F)]))) (fun t => t.I == 0x004B) = true := by decide

/-- V-M10: not masked to a nibble. -/
theorem test_ldFont_unmasked : endsIn (quiet (at' 0xF029 (withRegs [(0, 0x10)]))) (fun t => t.I == 0x0050) = true := by decide

/-- V-M14. -/
theorem test_ldBcd_last_address : endsIn (quiet (at' 0xF033 { withRegs [(0, 255)] with I := 0xFFD })) (fun t =>
    Memory.readBytes t.mem 0xFFD 3 == [2, 5, 5] && t.I == 0xFFD) = true := by decide

/-- V-M15. -/
theorem test_ldBcd_bound : endsIn (quiet (at' 0xF033 { withRegs [(0, 255)] with I := 0xFFE })) (fun t =>
    t.event == some (.memoryOutOfBounds 0x1000) && t.pc == 0x200 && Memory.readBytes t.mem 0xFFE 2 == [0, 0]) = true := by
  decide

/-- V-M16. -/
theorem test_stRegs :
    endsIn (quiet (at' 0xF255 { withRegs [(0, 0x11), (1, 0x22), (2, 0x33), (3, 0x44)] with I := 0x400 })) (fun t =>
      Memory.readBytes t.mem 0x400 4 == [0x11, 0x22, 0x33, 0x00] && t.I == 0x403) = true := by decide

/-- V-M19. -/
theorem test_stRegs_bound : endsIn (quiet (at' 0xFF55 { withRegs [(0, 1), (15, 0xEE)] with I := 0xFF1 })) (fun t =>
    t.event == some (.memoryOutOfBounds 0x1000) && t.I == 0xFF1 && t.pc == 0x200 && Memory.read t.mem 0xFF1 == 0) = true := by
  decide

/-- V-M20. -/
theorem test_ldRegs :
    endsIn (quiet (at' 0xF265 (bytesAt 0x300 [2, 3, 4, 5] { withRegs [(3, 0x99)] with I := 0x300 }))) (fun t =>
      t.reg 0 == 2 && t.reg 1 == 3 && t.reg 2 == 4 && t.reg 3 == 0x99 && t.I == 0x303) = true := by decide

/-- V-M22. -/
theorem test_ldRegs_bound : endsIn (quiet (at' 0xF165 { withRegs [(0, 7)] with I := 0xFFF })) (fun t =>
    t.event == some (.memoryOutOfBounds 0x1000) && t.I == 0xFFF && t.reg 0 == 7) = true := by decide

/-! ## Display -/

/-- A framebuffer with one pixel set. -/
def onePixel (x y : Nat) : Framebuffer := flipPixel blankFb x y

/-- V-D14. -/
theorem test_cls : endsIn (quiet (at' 0x00E0 { withRegs [(15, 1)] with fb := onePixel 63 31, redraw := true })) (fun t =>
    !pixel t.fb 63 31 && t.redraw && t.reg 15 == 1 && t.pc == 0x202) = true := by decide

/-- V-D4: a collision. -/
theorem test_drw_collision :
    endsIn (quiet (at' 0xD012 (bytesAt 0x300 [0xC0, 0x80]
      { withRegs [(0, 10), (1, 5)] with I := 0x300, fb := onePixel 11 5 }))) (fun t =>
      pixel t.fb 10 5 && !pixel t.fb 11 5 && pixel t.fb 10 6 && t.reg 15 == 1 && t.redraw) = true := by decide

/-- V-D12: bit 0 is column 7. -/
theorem test_drw_bit_order : endsIn (quiet (at' 0xD011 (bytesAt 0xFFF [0x01] { State.reset with I := 0xFFF }))) (fun t =>
    pixel t.fb 7 0 && !pixel t.fb 0 0 && t.reg 15 == 0 && t.redraw) = true := by decide

/-- V-D6: the extent test. -/
theorem test_drw_extent : endsIn (quiet (at' 0xD011 { withRegs [(0, 57)] with I := 0x300 })) (fun t =>
    t.event == some (.drawOutOfBounds 57 0 1) && !t.redraw && t.pc == 0x200) = true := by decide

/-- V-D11: the memory bound comes first. -/
theorem test_drw_bound : endsIn (quiet (at' 0xD012 { withRegs [(0, 60)] with I := 0xFFF })) (fun t =>
    t.event == some (.memoryOutOfBounds 0x1000)) = true := by decide

/-- V-D10: `N = 0`. -/
theorem test_drw_empty : endsIn (quiet (at' 0xD010 { withRegs [(0, 200), (1, 200), (15, 7)] with I := 0x1234 })) (fun t =>
    t.reg 15 == 0 && t.redraw && t.pc == 0x202 && t.event == none) = true := by decide

/-! ## Keys and timers -/

/-- V-K5. -/
theorem test_skp : endsIn (quiet (at' 0xE09E (pressing [15] (withRegs [(0, 15)])))) (fun t => t.pc == 0x204) = true := by decide

/-- V-K8: not masked. -/
theorem test_skp_range : endsIn (quiet (at' 0xE09E (pressing [10] (withRegs [(0, 0x1A)])))) (fun t =>
    t.event == some (.keyIndexOutOfRange 26) && t.pc == 0x200) = true := by decide

/-- V-K3. -/
theorem test_sknp_pressed : endsIn (quiet (at' 0xE3A1 (pressing [10] (withRegs [(3, 0x0A)])))) (fun t => t.pc == 0x202) = true := by
  decide

/-- V-K4. -/
theorem test_sknp_open : endsIn (quiet (at' 0xE3A1 (withRegs [(3, 0x0A)]))) (fun t => t.pc == 0x204) = true := by decide

/-- V-K9: the value before the countdown. -/
theorem test_ldFromDt : endsIn (stepWith true 0 (at' 0xF107 { State.reset with DT := 6 })) (fun t =>
    t.reg 1 == 6 && t.DT == 5) = true := by decide

/-- V-S10: a wait step ignores `tick`. -/
theorem test_ldKey_waits : endsIn (stepWith true 0 (at' 0xF00A { State.reset with DT := 3, ST := 2 })) (fun t =>
    t.pc == 0x200 && t.DT == 3 && t.ST == 2 && t.event == none) = true := by decide

/-- V-K14: the lowest key; the latches stay. -/
theorem test_ldKey_lowest : endsIn (quiet (at' 0xF30A (pressing [3, 9] State.reset))) (fun t =>
    t.reg 3 == 3 && t.pc == 0x202 && t.key[3] && t.key[9]) = true := by decide

/-- V-K18: the countdown follows the write in the same step. -/
theorem test_ldToDt : endsIn (stepWith true 0 (at' 0xF015 (withRegs [(0, 7)]))) (fun t => t.DT == 6 && t.pc == 0x202) = true := by
  decide

/-- V-K20. -/
theorem test_ldToSt : endsIn (quiet (at' 0xF218 (withRegs [(2, 0x1E)]))) (fun t => t.ST == 0x1E && toneActive t) = true := by
  decide

/-- V-K21. -/
theorem test_ldToSt_tick : endsIn (stepWith true 0 (at' 0xF018 (withRegs [(0, 1)]))) (fun t => t.ST == 0 && !toneActive t) = true := by
  decide

/-! ## The host interface -/

/-- V-H1. -/
theorem test_loadProgram : endsIn (performAll [.loadProgram [0x12, 0x00]] State.reset) (fun t =>
    Memory.readBytes t.mem 0x1FF 4 == [0, 0x12, 0, 0] && t.pc == 0x200) = true := by decide

/-- V-H5. -/
theorem test_setKey : endsIn (performAll [.setKey 4 true, .setKey 5 true, .setKey 4 false] State.reset) (fun t =>
    !t.key[4] && t.key[5]) = true := by decide

/-- V-H8, with the default font's first glyph (V-M24). -/
theorem test_reset : endsIn (performAll [.reset Config.font] { withRegs [(1, 9)] with mem := [(0x200, 0x12)], pc := 0x300 }) (fun t =>
    t.reg 1 == 0 && t.pc == 0x200 && Memory.read t.mem 0x200 == 0 &&
      Memory.readBytes t.mem 0 5 == [0xF0, 0x90, 0x90, 0x90, 0xF0]) = true := by decide

/-! ## Witnesses: for each statement with hypotheses, concrete values that meet all of them together -/

/-- `s` with the inputs of the next step fixed to `tick = 0`, `rnd = 0`. -/
def fixed (s : State) : State := { s with inputs := [⟨false, 0⟩] }

/-- The three bytes at `I = 0xFFD` are stored by the next step. -/
def bcdState : State := fixed (at' 0xF033 { withRegs [(0, 255)] with I := 0xFFD })

theorem witness_EveryStepKeepsMemoryCanonical : bcdState.memOk ∧ ∃ t, step bcdState = .next t ∧ (t.mem != bcdState.mem) = true :=
  ⟨rfl, next_of_endsIn (by decide)⟩

/-- The largest `pc`, reached by `BNNN`. -/
def reachState : State := fixed (at' 0xBFFF (withRegs [(0, 0xFF)]))

theorem witness_EveryStepKeepsPcReach : reachState.pcOk ∧ ∃ t, step reachState = .next t ∧ (t.pc == 0x10FE) = true :=
  ⟨⟨by decide, by decide⟩, next_of_endsIn (by decide)⟩

/-- Calls of all seven operations after reset. -/
theorem witness_EveryHostRunMeetsInvariants : ∃ t, performAll [.loadProgram [0x12, 0x00], .step true 0, .setKey 15 true,
    .framebuffer, .takeRedrawFlag, .toneActive, .reset Config.font, .step false 1] State.reset = .next t ∧
    (t.event == some (.unknownOpcode 0)) = true := next_of_endsIn (by decide)

/-- Calls that change the state: a step that stores three bytes, and a program of one word. -/
theorem witness_EveryHostCallKeepsInvariants : bcdState.memOk ∧ bcdState.pcOk ∧
    (∃ a, perform (.step true 0) bcdState = .next a ∧ a.state.mem ≠ bcdState.mem) ∧
    ∃ a, perform (.loadProgram [0x12, 0x00]) bcdState = .next a ∧ a.state.mem ≠ bcdState.mem := by
  obtain ⟨t, ht, h⟩ := next_of_endsIn (r := stepWith true 0 bcdState) (p := fun t => t.mem != bcdState.mem) (by decide)
  refine ⟨rfl, ⟨by decide, by decide⟩, ⟨⟨.event t.event, t⟩, by simp only [perform, ht], ?_⟩, ⟨_, rfl, by decide⟩⟩
  simpa using h

theorem witness_CanonicalMemoriesReadAlikeAreEqual :
    ∃ m n : Memory, Memory.wf m = true ∧ Memory.wf n = true ∧ (∀ a, Memory.read m a = Memory.read n a) ∧ m ≠ [] :=
  ⟨[(0xFFF, 1)], [(0xFFF, 1)], by decide, by decide, fun _ => rfl, by decide⟩

theorem witness_EncodeOfDecodeIsIdentity : decodeWord 0xFF65 = some (.ldRegs 15) ∧ decodeWord 0x00E0 = some .cls := by decide

theorem witness_ResetGivesEveryPieceOfState_bounds :
    Memory.read State.reset.mem 79 = 0x80 ∧ Memory.read State.reset.mem 80 = 0 ∧ Memory.read State.reset.mem 0xFFF = 0 := by
  decide

/-- `pc` at the last fetchable address. -/
def lastWord (op : Nat) (s : State) : State := at' op { s with pc := 0xFFE }

theorem witness_FetchIsBigEndian : (lastWord 0x632A State.reset).pc.toNat ≤ 0xFFE ∧
    fetch (lastWord 0x632A State.reset) = .ok 0x632A := ⟨by decide, rfl⟩

theorem witness_StepRunsDecodedInstruction : ∃ s : State, ∃ op : Word, ∃ i : Instr, fetch s = .ok op ∧
    decodeWord op = some i ∧ ((∃ x, i = .ldKey x) → ∃ (k : Nat) (h : k < 16), s.key[k] = true) :=
  ⟨lastWord 0x632A State.reset, 0x632A, .ldImm 3 0x2A, rfl, rfl, fun h => by obtain ⟨x, hx⟩ := h; cases hx⟩

theorem witness_StepRunsDecodedInstruction_key : ∃ s : State, ∃ op : Word, ∃ x : Reg, fetch s = .ok op ∧
    decodeWord op = some (.ldKey x) ∧ ∃ (k : Nat) (h : k < 16), s.key[k] = true :=
  ⟨pressing [15] (at' 0xF30A State.reset), 0xF30A, 3, rfl, rfl, 15, by decide, rfl⟩

/-- A stalled state: an Unknown word, timers running. -/
def stalled : State := { at' 0x0000 { State.reset with DT := 3, ST := 2 } with inputs := [⟨true, 0⟩] }

theorem witness_ConditionLeavesBlockUnchanged :
    ∃ t, step stalled = .next t ∧ (t.event == some (.unknownOpcode 0x0000)) = true := next_of_endsIn (by decide)

theorem witness_ConditionPersists : ∃ t u, step stalled = .next t ∧ t.event = some (.unknownOpcode 0x0000) ∧
    [HostCall.step true 7, .setKey 15 true, .takeRedrawFlag, .framebuffer, .toneActive].all keepsStall = true ∧
    performAll [.step true 7, .setKey 15 true, .takeRedrawFlag, .framebuffer, .toneActive] t = .next u := by
  obtain ⟨t, ht, h⟩ := next_of_endsIn (r := step stalled) (p := fun t => t.event == some (.unknownOpcode 0x0000) &&
    endsIn (performAll [.step true 7, .setKey 15 true, .takeRedrawFlag, .framebuffer, .toneActive] t) (fun _ => true))
    (by decide)
  simp only [Bool.and_eq_true, beq_iff_eq] at h
  obtain ⟨u, hu, -⟩ := next_of_endsIn h.2
  exact ⟨t, u, ht, h.1, by decide, hu⟩

theorem witness_KeyWaitChangesNothing : ∃ s : State, fetch s = .ok 0xF30A ∧ decodeWord 0xF30A = some (.ldKey 3) ∧
    (∀ (k : Nat) (h : k < 16), s.key[k] = false) ∧ s.DT = 5 :=
  ⟨at' 0xF30A { State.reset with DT := 5 }, rfl, rfl, by decide, rfl⟩

/-- One case for each clause: `FX15`, `FX18`, and a completing `FX0A`. -/
theorem witness_TimersOverAStep :
    (∃ t, step (fixed (at' 0xF015 (withRegs [(0, 7)]))) = .next t ∧ (t.DT == 7) = true) ∧
    fetch (fixed (at' 0xF015 (withRegs [(0, 7)]))) = .ok 0xF015 ∧ decodeWord 0xF015 = some (.ldToDt 0) ∧
    (∃ t, step (fixed (at' 0xF018 (withRegs [(0, 7)]))) = .next t ∧ (t.ST == 7) = true) ∧
    fetch (fixed (at' 0xF018 (withRegs [(0, 7)]))) = .ok 0xF018 ∧ decodeWord 0xF018 = some (.ldToSt 0) ∧
    (∃ t, step (fixed (pressing [15] (at' 0xF30A State.reset))) = .next t ∧ (t.reg 3 == 15) = true) ∧
    fetch (fixed (pressing [15] (at' 0xF30A State.reset))) = .ok 0xF30A ∧ decodeWord 0xF30A = some (.ldKey 3) ∧
    (fixed (pressing [15] (at' 0xF30A State.reset))).key[15] = true :=
  ⟨next_of_endsIn (by decide), rfl, rfl, next_of_endsIn (by decide), rfl, rfl, next_of_endsIn (by decide), rfl, rfl, rfl⟩

/-- Two steps that differ in `rnd`, at a `CXNN` and at another instruction. -/
theorem witness_RndInfluencesOnlyCXNN :
    (∃ t, stepWith true 0 (at' 0xC3FF State.reset) = .next t ∧ (t.reg 3 == 0) = true) ∧
    (∃ u, stepWith true 255 (at' 0xC3FF State.reset) = .next u ∧ (u.reg 3 == 255) = true) ∧
    fetch (at' 0xC3FF State.reset) = .ok 0xC3FF ∧ decodeWord 0xC3FF = some (.rnd 3 0xFF) ∧
    (∃ t, stepWith true 0 (at' 0x632A State.reset) = .next t ∧ (t.reg 3 == 0x2A) = true) ∧
    (∃ u, stepWith true 255 (at' 0x632A State.reset) = .next u ∧ (u.reg 3 == 0x2A) = true) ∧
    fetch (at' 0x632A State.reset) = .ok 0x632A ∧ decodeWord 0x632A = some (.ldImm 3 0x2A) :=
  ⟨next_of_endsIn (by decide), next_of_endsIn (by decide), rfl, rfl, next_of_endsIn (by decide),
    next_of_endsIn (by decide), rfl, rfl⟩

/-- Two steps that differ in `tick`, at a wait step and at another. -/
theorem witness_TickInfluencesOnlyTimers :
    (∃ t, stepWith true 0 (at' 0xF30A { State.reset with DT := 1 }) = .next t ∧ (t.DT == 1) = true) ∧
    (∃ u, stepWith false 0 (at' 0xF30A { State.reset with DT := 1 }) = .next u ∧ (u.DT == 1) = true) ∧
    isWaitStep (at' 0xF30A { State.reset with DT := 1 }) = true ∧
    (∃ t, stepWith true 0 (at' 0x1200 { State.reset with DT := 1 }) = .next t ∧ (t.DT == 0) = true) ∧
    (∃ u, stepWith false 0 (at' 0x1200 { State.reset with DT := 1 }) = .next u ∧ (u.DT == 1) = true) ∧
    isWaitStep (at' 0x1200 { State.reset with DT := 1 }) = false :=
  ⟨next_of_endsIn (by decide), next_of_endsIn (by decide), by decide, next_of_endsIn (by decide),
    next_of_endsIn (by decide), by decide⟩

/-- For each clause an instruction that writes the cell. -/
theorem witness_OnlyNamedInstructionsWriteEachCell :
    (∃ t, exec (.ldBcd 0) bcdState = .next t ∧ (t.mem != bcdState.mem) = true) ∧
    (∃ t, exec (.call 0xFFF) State.reset = .next t ∧ (t.stack != State.reset.stack && t.sp != State.reset.sp) = true) ∧
    (∃ t, exec (.drw 0 0 1) State.reset = .next t ∧ (pixel t.fb 0 0 != pixel State.reset.fb 0 0 && t.redraw != State.reset.redraw) = true) ∧
    (∃ t, exec (.ldToDt 15) (withRegs [(15, 1)]) = .next t ∧ (t.DT != 0) = true) ∧
    (∃ t, exec (.ldToSt 15) (withRegs [(15, 1)]) = .next t ∧ (t.ST != 0) = true) ∧
    (∃ t, exec (.ldIndex 0xFFF) State.reset = .next t ∧ (t.I != 0) = true) :=
  ⟨next_of_endsIn (by decide), next_of_endsIn (by decide), next_of_endsIn (by decide), next_of_endsIn (by decide),
    next_of_endsIn (by decide), next_of_endsIn (by decide)⟩

theorem witness_OnlyFlagInstructionsTouchVF :
    (∃ t, exec (.addReg 1 2) (withRegs [(1, 255), (2, 1)]) = .next t ∧ (t.reg 15 != (withRegs [(1, 255), (2, 1)]).reg 15) = true) ∧
    (∃ t, exec (.drw 0 0 15) State.reset = .next t ∧ (t.reg 15 == 0) = true) ∧ conditionOf (.drw 0 0 15) State.reset = none :=
  ⟨next_of_endsIn (by decide), next_of_endsIn (by decide), by decide⟩

theorem witness_RandomAndMask :
    fetch (lastWord 0xC30F State.reset) = .ok 0xC30F ∧ decodeWord 0xC30F = some (.rnd 3 0x0F) := ⟨rfl, rfl⟩

/-- Both jumps beyond the last fetchable address: to 0xFFF and to 0x10FE. -/
theorem witness_JumpsSetPc :
    (∃ t, exec (.jp 0xFFF) State.reset = .next t ∧ decide (0xFFE < t.pc.toNat) = true) ∧
    (∃ u, exec (.jpV0 0xFFF) (withRegs [(0, 0xFF)]) = .next u ∧ decide (0xFFE < u.pc.toNat) = true) :=
  ⟨next_of_endsIn (by decide), next_of_endsIn (by decide)⟩

theorem witness_CallPushesReturnAddress :
    (∃ s : State, s.sp.val < 16 ∧ s.sp.val = 15) ∧ ∃ s : State, s.sp.val = 16 :=
  ⟨⟨{ State.reset with sp := 15 }, by decide, rfl⟩, ⟨{ State.reset with sp := 16 }, rfl⟩⟩

theorem witness_ReturnPopsAddress : (∃ s : State, 0 < s.sp.val ∧ s.sp.val = 1) ∧ ∃ s : State, s.sp.val = 0 :=
  ⟨⟨{ State.reset with sp := 1 }, by decide, rfl⟩, ⟨State.reset, rfl⟩⟩

/-- A call with one free entry left, to a `00EE` at the last fetchable address. -/
theorem witness_CallThenReturnResumes : ∃ s : State, fetch s = .ok 0x2FFE ∧ decodeWord 0x2FFE = some (.call 0xFFE) ∧
    s.sp.val < 16 ∧ (0xFFE#12).toNat ≤ 0xFFE ∧ Memory.read s.mem 0xFFE = 0x00 ∧ Memory.read s.mem (0xFFE + 1) = 0xEE :=
  ⟨at' 0x2FFE (bytesAt 0xFFE [0x00, 0xEE] { State.reset with sp := 15 }), rfl, rfl, by decide, by decide, rfl, rfl⟩

theorem witness_RegisterSkips : (1 : BitVec 4) ≠ 0 ∧ (15 : BitVec 4) ≠ 0 := by decide

/-- The last address that fits and the first that does not. -/
theorem witness_StoreDecimalDigits : (∃ s : State, s.memOk ∧ s.I.toNat ≤ 0xFFD ∧ s.I = 0xFFD) ∧
    ∃ s : State, s.memOk ∧ 0xFFD < s.I.toNat ∧ s.I = 0xFFE :=
  ⟨⟨{ State.reset with I := 0xFFD }, rfl, by decide, rfl⟩,
    ⟨{ State.reset with I := 0xFFE }, rfl, by decide, rfl⟩⟩

theorem witness_StoreRegisters : (∃ s : State, s.memOk ∧ s.I.toNat + (15#4).toNat ≤ 0xFFF ∧ s.I = 0xFF0) ∧
    ∃ s : State, s.memOk ∧ 0xFFF < s.I.toNat + (15#4).toNat ∧ s.I = 0xFF1 :=
  ⟨⟨{ State.reset with I := 0xFF0 }, rfl, by decide, rfl⟩,
    ⟨{ State.reset with I := 0xFF1 }, rfl, by decide, rfl⟩⟩

theorem witness_LoadRegisters : (∃ s : State, s.I.toNat + (0#4).toNat ≤ 0xFFF ∧ s.I = 0xFFF) ∧
    ∃ s : State, 0xFFF < s.I.toNat + (0#4).toNat ∧ s.I = 0x1000 :=
  ⟨⟨{ State.reset with I := 0xFFF }, by decide, rfl⟩, ⟨{ State.reset with I := 0x1000 }, by decide, rfl⟩⟩

/-- The registers of the next two witnesses. -/
def storeState : State := { withRegs [(0, 0x12), (1, 0x0A)] with I := 0xFFE }

theorem witness_StoreThenLoadRestoresRegisters : ∃ t w : State, storeState.memOk ∧
    storeState.I.toNat + (1#4).toNat ≤ 0xFFF ∧ exec (.stRegs 1) storeState = .next t ∧ w.mem = t.mem ∧ w.I = storeState.I := by
  obtain ⟨t, ht, -⟩ := next_of_endsIn (r := exec (.stRegs 1) storeState) (p := fun _ => true) (by decide)
  exact ⟨t, { t with I := storeState.I }, rfl, by decide, ht, rfl, rfl⟩

theorem witness_StoreIsSeenByFetch : ∃ t w : State, storeState.memOk ∧ storeState.I.toNat + (1#4).toNat ≤ 0xFFF ∧
    exec (.stRegs 1) storeState = .next t ∧ w.mem = t.mem ∧ (1#4).toNat = (0#4).toNat + 1 ∧ (1#4).toNat ≤ (1#4).toNat ∧
    w.pc.toNat = storeState.I.toNat + (0#4).toNat := by
  obtain ⟨t, ht, -⟩ := next_of_endsIn (r := exec (.stRegs 1) storeState) (p := fun _ => true) (by decide)
  exact ⟨t, { t with pc := 0xFFE }, rfl, by decide, ht, rfl, by decide, by decide, rfl⟩

/-- The corner of the grid and the last sprite byte; and the empty draw far outside. -/
theorem witness_DrawXorsSprite :
    drawFits { withRegs [(0, 56), (1, 31)] with I := 0xFFF } 0 1 1 ∧
    drawFits { withRegs [(0, 200), (1, 200)] with I := 0x1234 } 0 1 0 :=
  ⟨.inr (by decide), .inl rfl⟩

/-- A draw of font glyph 0 that meets a set pixel, and one that meets none. -/
theorem witness_DrawXorsSprite_collision :
    (∃ t, exec (.drw 0 0 1) { State.reset with fb := onePixel 3 0 } = .next t ∧
      (pixel (onePixel 3 0) 3 0 && !pixel t.fb 3 0 && t.reg 15 == 1) = true) ∧
    (∃ t, exec (.drw 0 0 1) { State.reset with fb := onePixel 4 0 } = .next t ∧
      (pixel (onePixel 4 0) 4 0 && pixel t.fb 4 0 && t.reg 15 == 0) = true) :=
  ⟨next_of_endsIn (by decide), next_of_endsIn (by decide)⟩

theorem witness_DrawOutOfBoundsChangesNothing :
    (∃ s : State, (1 : BitVec 4) ≠ 0 ∧ 4096 < s.I.toNat + (1#4).toNat ∧ s.I = 0x1000) ∧
    (∃ s : State, (1 : BitVec 4) ≠ 0 ∧ s.I.toNat + (1#4).toNat ≤ 4096 ∧ 56 < (s.reg 0).toNat ∧ s.reg 0 = 57) ∧
    (∃ s : State, (15 : BitVec 4) ≠ 0 ∧ s.I.toNat + (15#4).toNat ≤ 4096 ∧ 32 < (s.reg 1).toNat + (15#4).toNat ∧
      s.reg 1 = 18) :=
  ⟨⟨{ State.reset with I := 0x1000 }, by decide, by decide, rfl⟩, ⟨withRegs [(0, 57)], by decide, by decide, by decide, rfl⟩,
    ⟨withRegs [(1, 18)], by decide, by decide, by decide, rfl⟩⟩

theorem witness_DrawTwiceRestoresFramebuffer : ∃ t, (0 : Reg) ≠ 15 ∧ (1 : Reg) ≠ 15 ∧
    drawFits (withRegs [(0, 56), (1, 27)]) 0 1 5 ∧ exec (.drw 0 1 5) (withRegs [(0, 56), (1, 27)]) = .next t := by
  obtain ⟨t, ht, -⟩ :=
    next_of_endsIn (r := exec (.drw 0 1 5) (withRegs [(0, 56), (1, 27)])) (p := fun _ => true) (by decide)
  exact ⟨t, by decide, by decide, .inr (by decide), ht⟩

theorem witness_KeySkips : (∃ s : State, (s.reg 0).toNat < 16 ∧ s.reg 0 = 15) ∧ ∃ s : State, 16 ≤ (s.reg 0).toNat ∧ s.reg 0 = 16 :=
  ⟨⟨withRegs [(0, 15)], by decide, rfl⟩, ⟨withRegs [(0, 16)], by decide, rfl⟩⟩

theorem witness_LoadKeyPicksLowest :
    (∃ s : State, s.key[15] = true ∧ ∀ (j : Nat) (hj : j < 15), s.key[j] = false) ∧
    ∃ s : State, ∀ (k : Nat) (h : k < 16), s.key[k] = false :=
  ⟨⟨pressing [15] State.reset, rfl, by decide⟩, ⟨State.reset, by decide⟩⟩

theorem witness_TimerInstructions :
    fetch (at' 0xF007 State.reset) = .ok (0xF#4 ++ (0 : Reg) ++ 0x07#8) ∧
    fetch (at' 0xFF15 State.reset) = .ok (0xF#4 ++ (15 : Reg) ++ 0x15#8) ∧
    fetch (at' 0xFF18 State.reset) = .ok (0xF#4 ++ (15 : Reg) ++ 0x18#8) := ⟨rfl, rfl, rfl⟩

theorem witness_LoadProgramCopies : State.reset.memOk ∧ (List.replicate 3584 (0xFF : Byte)).length ≤ 3584 :=
  ⟨rfl, by rw [List.length_replicate]⟩

theorem witness_ProgramTooLargeRejected : State.reset.memOk ∧ 3584 < (List.replicate 3585 (0xFF : Byte)).length ∧
    (List.replicate 3584 (0xFF : Byte)).length = 3584 ∧ ∃ t, step bcdState = .next t ∧ (t.event == none) = true :=
  ⟨rfl, by rw [List.length_replicate]; decide, List.length_replicate, next_of_endsIn (by decide)⟩

theorem witness_SetKeyWritesOneLatch : (15 : Nat) < 16 ∧ 16 ≤ (16 : Nat) := by decide

theorem witness_TakeRedrawFlagReadsAndClears : ∃ v, State.reset.redraw = false ∧ (∀ x y n, Instr.cls ≠ .drw x y n) ∧
    exec .cls State.reset = .next v := by
  obtain ⟨v, hv, -⟩ := next_of_endsIn (r := exec .cls State.reset) (p := fun _ => true) (by decide)
  exact ⟨v, rfl, fun _ _ _ h => Instr.noConfusion h, hv⟩

end Sys2Proof.Tests
end

section
/-! PROOFS. The statements about memory access. -/

open Sys2Proof.Machine

namespace Sys2Proof.Proofs

/-- Settles O12: the fetched word is `mem[pc] ++ mem[pc+1]` (`fetch_eq_ok`), whose upper eight bits are the first byte and
whose lower eight are the second. -/
theorem fetchIsBigEndian : Obligations.FetchIsBigEndian := by
  intro s hpc
  have hfetch : fetch s = .ok (Memory.read s.mem s.pc.toNat ++ Memory.read s.mem (s.pc.toNat + 1)) :=
    (fetch_eq_ok s _).mpr ⟨hpc, rfl⟩
  exact ⟨_, hfetch, BitVec.extractLsb'_append_eq_left, BitVec.extractLsb'_append_eq_right⟩

end Sys2Proof.Proofs
end

section
/-! PROOFS. The statements about control flow: the skips on register values. -/

open Sys2Proof Sys2Proof.Machine Sys2Proof.Claims

namespace Sys2Proof.Proofs

/-! ## The skip families of the decoder (R84, R87) -/

theorem decodeWord_of_family_3 {op : Word} (h : Word.family op = 0x3) :
    decodeWord op = some (.seImm (Word.fieldX op) (Word.fieldNN op)) := by
  simp [decodeWord, h]

theorem decodeWord_of_family_4 {op : Word} (h : Word.family op = 0x4) :
    decodeWord op = some (.sneImm (Word.fieldX op) (Word.fieldNN op)) := by
  simp [decodeWord, h]

theorem decodeWord_of_family_5 {op : Word} (h : Word.family op = 0x5) :
    decodeWord op = if Word.fieldN op = 0 then some (.seReg (Word.fieldX op) (Word.fieldY op)) else none := by
  simp [decodeWord, h]

theorem decodeWord_of_family_9 {op : Word} (h : Word.family op = 0x9) :
    decodeWord op = if Word.fieldN op = 0 then some (.sneReg (Word.fieldX op) (Word.fieldY op)) else none := by
  simp [decodeWord, h]

theorem decodeWord_formatXNN_3 (x : Reg) (nn : Byte) : decodeWord (formatXNN 0x3 x nn) = some (.seImm x nn) := by
  rw [decodeWord_of_family_3 (family_formatXNN ..), fieldX_formatXNN, fieldNN_formatXNN]

theorem decodeWord_formatXNN_4 (x : Reg) (nn : Byte) : decodeWord (formatXNN 0x4 x nn) = some (.sneImm x nn) := by
  rw [decodeWord_of_family_4 (family_formatXNN ..), fieldX_formatXNN, fieldNN_formatXNN]

theorem decodeWord_formatNibbles_5 (x y : Reg) (n : BitVec 4) :
    decodeWord (formatNibbles 0x5 x y n) = if n = 0 then some (.seReg x y) else none := by
  rw [decodeWord_of_family_5 (family_formatNibbles ..), fieldX_formatNibbles, fieldY_formatNibbles, fieldN_formatNibbles]

theorem decodeWord_formatNibbles_9 (x y : Reg) (n : BitVec 4) :
    decodeWord (formatNibbles 0x9 x y n) = if n = 0 then some (.sneReg x y) else none := by
  rw [decodeWord_of_family_9 (family_formatNibbles ..), fieldX_formatNibbles, fieldY_formatNibbles, fieldN_formatNibbles]

/-! ## The skips themselves (R133 to R136) -/

/-- An instruction whose handler is `skipIf` on a test of `c` skips exactly when `c` and writes `pc` alone. -/
theorem skipsWhen_of_exec_eq_skipIf {i : Instr} {b : Bool} {c : Prop} {s : State} (hexec : exec i s = skipIf b s)
    (hb : b = true ↔ c) : skipsWhen i c s := by
  refine ⟨_, hexec.trans (skipIf_eq b s), fun hc => ?_, fun hc => ?_, rfl, fun _ => rfl⟩
  · rw [State.setPc_pc, if_pos (hb.mpr hc)]
  · rw [State.setPc_pc, if_neg (mt hb.mp hc)]

/-- Settles O34: the four words decode by their family (nibble 4 of 5XY0 and 9XY0 must be 0), and each handler is `skipIf` on the
Boolean form of its condition. -/
theorem registerSkips : Obligations.RegisterSkips := by
  intro x y nn s
  refine ⟨decodeWord_formatXNN_3 x nn, skipsWhen_of_exec_eq_skipIf rfl beq_iff_eq,
    decodeWord_formatXNN_4 x nn, skipsWhen_of_exec_eq_skipIf rfl bne_iff_ne,
    decodeWord_formatNibbles_5 x y 0, skipsWhen_of_exec_eq_skipIf rfl beq_iff_eq,
    decodeWord_formatNibbles_9 x y 0, skipsWhen_of_exec_eq_skipIf rfl bne_iff_ne, fun n hn => ⟨?_, ?_⟩⟩
  · exact (decodeWord_formatNibbles_5 x y n).trans (if_neg hn)
  · exact (decodeWord_formatNibbles_9 x y n).trans (if_neg hn)

end Sys2Proof.Proofs
end

section
/-! PROOFS. The statements about register load and the ALU: the plain writes. -/

open Sys2Proof Sys2Proof.Machine Sys2Proof.Claims

namespace Sys2Proof.Proofs

/-! ## The load, add and copy families of the decoder (R84, R88) -/

theorem decodeWord_of_family_6 {op : Word} (h : Word.family op = 0x6) :
    decodeWord op = some (.ldImm (Word.fieldX op) (Word.fieldNN op)) := by
  simp [decodeWord, h]

theorem decodeWord_of_family_7 {op : Word} (h : Word.family op = 0x7) :
    decodeWord op = some (.addImm (Word.fieldX op) (Word.fieldNN op)) := by
  simp [decodeWord, h]

theorem decodeWord_of_family_8 {op : Word} (h : Word.family op = 0x8) : decodeWord op = decodeFamily8 op := by
  simp [decodeWord, h]

theorem decodeWord_formatXNN_6 (x : Reg) (nn : Byte) : decodeWord (formatXNN 0x6 x nn) = some (.ldImm x nn) := by
  rw [decodeWord_of_family_6 (family_formatXNN ..), fieldX_formatXNN, fieldNN_formatXNN]

theorem decodeWord_formatXNN_7 (x : Reg) (nn : Byte) : decodeWord (formatXNN 0x7 x nn) = some (.addImm x nn) := by
  rw [decodeWord_of_family_7 (family_formatXNN ..), fieldX_formatXNN, fieldNN_formatXNN]

theorem decodeWord_formatNibbles_8_0 (x y : Reg) : decodeWord (formatNibbles 0x8 x y 0x0) = some (.ldReg x y) := by
  rw [decodeWord_of_family_8 (family_formatNibbles ..)]
  simp [decodeFamily8]

/-! ## The plain writes themselves (R150 to R155) -/

/-- An instruction whose handler is `writePlain` of `b` to `V[x]` completes with `b` there and otherwise writes `pc` alone. -/
theorem writesOneRegister_of_exec_eq_writePlain {i : Instr} {x : Reg} {b : Byte} {s : State}
    (hexec : exec i s = writePlain x b s) : writesOneRegister i x b s := by
  refine ⟨_, hexec.trans (writePlain_eq x b s), ?_, rfl, fun r hr => ?_, rfl, fun _ => rfl⟩
  · rw [State.setPc_reg, State.reg_setReg_same]
  · rw [State.setPc_reg, State.reg_setReg_ne s (mt List.mem_singleton.mpr hr)]

/-- Byte addition is the sum of the integers modulo 256 (R151). -/
theorem byte_add_eq_ofNat_mod (a b : Byte) : a + b = BitVec.ofNat 8 ((a.toNat + b.toNat) % 256) :=
  BitVec.eq_of_toNat_eq (by rw [BitVec.toNat_add, BitVec.toNat_ofNat, Nat.mod_mod])

/-- Settles O24: the three words decode by their family (and nibble 4 of 8XY0), and each handler is `writePlain`, of `NN`, of
the wrapping sum, or of `V[Y]`. -/
theorem loadAddImmediateAndCopy : Obligations.LoadAddImmediateAndCopy := by
  intro x y nn s
  have hadd : exec (.addImm x nn) s = writePlain x (BitVec.ofNat 8 (((s.reg x).toNat + nn.toNat) % 256)) s := by
    rw [← byte_add_eq_ofNat_mod, exec_addImm, execAddImm]
  exact ⟨decodeWord_formatXNN_6 x nn, writesOneRegister_of_exec_eq_writePlain rfl,
    decodeWord_formatXNN_7 x nn, writesOneRegister_of_exec_eq_writePlain hadd,
    decodeWord_formatNibbles_8_0 x y, writesOneRegister_of_exec_eq_writePlain rfl⟩

end Sys2Proof.Proofs
end

section
/-! PROOFS. The statements about the index register and memory: the load of `I`. -/

open Sys2Proof Sys2Proof.Machine Sys2Proof.Claims

namespace Sys2Proof.Proofs

/-! ## The index family of the decoder (R84) -/

theorem decodeWord_of_family_A {op : Word} (h : Word.family op = 0xA) :
    decodeWord op = some (.ldIndex (Word.fieldNNN op)) := by
  simp [decodeWord, h]

theorem decodeWord_formatNNN_A (nnn : BitVec 12) : decodeWord (formatNNN 0xA nnn) = some (.ldIndex nnn) := by
  rw [decodeWord_of_family_A (family_formatNNN ..), fieldNNN_formatNNN]

/-! ## The load itself (R170) -/

/-- Zero extension keeps the address as an integer. -/
@[simp] theorem toNat_addressImm (nnn : BitVec 12) : (addressImm nnn).toNat = nnn.toNat :=
  BitVec.toNat_setWidth_of_le (by decide)

/-- An instruction whose handler ends sequentially after `I <- w` completes with `w` there and otherwise writes `pc` alone. -/
theorem writesI_of_exec_eq_sequential_setI {i : Instr} {w : Word} {s : State} (hexec : exec i s = sequential (s.setI w)) :
    ∃ t, exec i s = .next t ∧ t.I = w ∧ t.pc = s.pc + 2 ∧ onlyIPc s t ∧ sameMemory s t :=
  ⟨_, hexec.trans (sequential_eq _), rfl, rfl, rfl, fun _ => rfl⟩

/-- Settles O35: ANNN decodes by its family, and its handler ends sequentially after `I <- zext_16(NNN)`. -/
theorem loadIndexSetsI : Obligations.LoadIndexSetsI := by
  intro nnn s
  obtain ⟨t, hexec, hI, hpc, hframe, hmem⟩ := writesI_of_exec_eq_sequential_setI (exec_ldIndex nnn s)
  have hnat : t.I.toNat = nnn.toNat := by rw [hI, toNat_addressImm]
  exact ⟨decodeWord_formatNNN_A nnn, t, hexec, hnat, hpc, hframe, hmem⟩

end Sys2Proof.Proofs
end

section
/-! PROOFS. The statements about the host's interface and what a step can report. -/

open Sys2Proof Sys2Proof.Machine Sys2Proof.Claims

namespace Sys2Proof.Proofs

/-! ## `load_program` (R228, R242) -/

theorem programWellFormed_iff (bytes : List Byte) : programWellFormed bytes = true ↔ bytes.length ≤ 3584 :=
  decide_eq_true_iff

theorem perform_loadProgram_of_length_le {bytes : List Byte} (h : bytes.length ≤ 3584) (s : State) :
    perform (.loadProgram bytes) s = .next ⟨.load none, s.setMem (Memory.writeBytes s.mem 0x200 bytes)⟩ := by
  have hload : loadProgram bytes s = .ok (s.setMem (Memory.writeBytes s.mem 0x200 bytes)) :=
    if_pos ((programWellFormed_iff bytes).mpr h)
  rw [perform, hload]

theorem perform_loadProgram_of_lt_length {bytes : List Byte} (h : 3584 < bytes.length) (s : State) :
    perform (.loadProgram bytes) s = .next ⟨.load (some .programTooLarge), s⟩ := by
  have hload : loadProgram bytes s = .error .programTooLarge :=
    if_neg (mt (programWellFormed_iff bytes).mp (Nat.not_le_of_lt h))
  rw [perform, hload]

/-! ## The conditions a step can report (R220) -/

/-- An instruction that completes either raised a condition of R220's codes 1 to 6, and did nothing else, or left the event
alone. -/
theorem exec_raises_or_keeps_event {i : Instr} {s t : State} (h : exec i s = .next t) :
    (∃ c, t = s.setEvent (some c) ∧ c ≠ .programTooLarge) ∨ t.event = s.event := by
  cases i
  case ret => exact (execRet_cases h).imp (fun ⟨_, ht⟩ => ⟨_, ht, nofun⟩) fun ⟨_, ht⟩ => ht ▸ rfl
  case call => exact (execCall_cases h).imp (fun ⟨_, ht⟩ => ⟨_, ht, nofun⟩) fun ⟨_, ht⟩ => ht ▸ rfl
  case drw =>
    rcases execDrw_cases h with ⟨_, ht⟩ | ⟨_, _, ht⟩ | ⟨_, _, ht⟩
    · exact .inl ⟨_, ht, nofun⟩
    · exact .inl ⟨_, ht, nofun⟩
    · exact .inr (ht ▸ rfl)
  case skp => exact (execSkp_cases h).imp (fun ⟨_, ht⟩ => ⟨_, ht, nofun⟩) fun ⟨_, ht⟩ => ht ▸ rfl
  case sknp => exact (execSknp_cases h).imp (fun ⟨_, ht⟩ => ⟨_, ht, nofun⟩) fun ⟨_, ht⟩ => ht ▸ rfl
  case ldBcd => exact (execLdBcd_cases h).imp (fun ⟨_, ht⟩ => ⟨_, ht, nofun⟩) fun ⟨_, ht⟩ => ht ▸ rfl
  case stRegs => exact (execStRegs_cases h).imp (fun ⟨_, ht⟩ => ⟨_, ht, nofun⟩) fun ⟨_, ht⟩ => ht ▸ rfl
  case ldRegs => exact (execLdRegs_cases h).imp (fun ⟨_, ht⟩ => ⟨_, ht, nofun⟩) fun ⟨_, ht⟩ => ht ▸ rfl
  case ldKey =>
    rcases execLdKey_cases h with ⟨_, ht⟩ | ⟨_, _, ht⟩
    · exact .inr (ht ▸ rfl)
    · exact .inr (ht ▸ rfl)
  -- The other instructions test nothing that can raise: each has one outcome, which `exec` computes.
  all_goals
    obtain rfl := Host.Outcome.next.inj h
    exact .inr rfl

/-- The same of the whole instruction phase, whose fetch and decode raise codes 5 and 1. -/
theorem instructionPhase_raises_or_keeps_event {s u : State} (h : instructionPhase s = .next u) :
    (∃ c, u = s.setEvent (some c) ∧ c ≠ .programTooLarge) ∨ u.event = s.event := by
  rcases instructionPhase_cases h with ⟨c, hfetch, hu⟩ | ⟨op, _, _, hu⟩ | ⟨op, i, _, _, hexec⟩
  · obtain ⟨_, rfl⟩ := (fetch_eq_error s c).mp hfetch
    exact .inl ⟨_, hu, nofun⟩
  · exact .inl ⟨_, hu, nofun⟩
  · exact exec_raises_or_keeps_event hexec

/-- Code 7 is no event of a step: the event starts as `None`, and only the instruction phase raises one. -/
theorem step_event_ne_programTooLarge {s t : State} (h : step s = .next t) : t.event ≠ some .programTooLarge := by
  rcases step_next_cases h with ⟨_, rfl⟩ | ⟨_, u, hu, rfl⟩
  · exact nofun
  · rw [State.consumeInput_event, State.timerPhase_event]
    rcases instructionPhase_raises_or_keeps_event hu with ⟨c, rfl, hc⟩ | hkept
    · exact mt Option.some.inj hc
    · rw [hkept]
      exact nofun

/-- Settles O50: the length test decides the load; 3584 bytes from 0x200 end at 0xFFF, so `read_writeBytes` gives each of them
back; and no phase of a step raises code 7. -/
theorem programTooLargeRejected : Obligations.ProgramTooLargeRejected := by
  intro bytes s hmem
  refine ⟨fun hlarge => perform_loadProgram_of_lt_length hlarge s, fun hlen => ?_, fun t => step_event_ne_programTooLarge⟩
  refine ⟨_, perform_loadProgram_of_length_le hlen.le s, fun a hlo hhi => ?_⟩
  rw [State.setMem_mem, Memory.read_writeBytes bytes hmem (by omega), if_pos (by omega)]

/-! ## The accessors that only read (R245, R246) -/

theorem toneActive_eq_true_iff (s : State) : toneActive s = true ↔ 0 < s.ST.toNat := decide_eq_true_iff

/-- Settles O52: both calls return the state they were given, `framebuffer` with its grid and `tone_active` with whether `ST` is
above 0. -/
theorem readAccessorsChangeNothing : Obligations.ReadAccessorsChangeNothing :=
  fun s => ⟨rfl, toneActive s, rfl, toneActive_eq_true_iff s⟩

end Sys2Proof.Proofs
end

section
/-! PROOFS. The statements about reset. -/

open Sys2Proof Sys2Proof.Machine Sys2Proof.Claims

namespace Sys2Proof.Proofs

/-! ## Memory after a reset (R32, R260) -/

/-- A font as memory contents from address 0: beyond its 80 bytes it reads as 0. -/
theorem getD_font_of_le (font : Vector Byte 80) {a : Nat} (h : 80 ≤ a) : font.toList.getD a 0 = 0 :=
  List.getD_eq_default _ _ (by rwa [Vector.length_toList])

theorem getD_font_of_lt (font : Vector Byte 80) {a : Nat} (h : a < 80) : font.toList.getD a 0 = font[a] := by
  rw [List.getD_eq_getElem _ _ (by rwa [Vector.length_toList]), Vector.getElem_toList]

@[simp] theorem resetWith_mem (s : State) (font : Vector Byte 80) :
    (s.resetWith font).mem = Memory.writeBytes [] 0 font.toList := rfl

/-- `reset()` stores all of the font from address 0; every later byte stays unlisted, which is 0 whatever the font. -/
theorem read_resetWith (s : State) (font : Vector Byte 80) (a : Nat) :
    Memory.read (s.resetWith font).mem a = font.toList.getD a 0 := by
  have hlen : font.toList.length = 80 := Vector.length_toList
  have hunlisted : 80 ≤ a → Memory.read [] a = 0 := getD_font_of_le Config.font
  rw [resetWith_mem, Memory.read_writeBytes font.toList rfl (by omega)]
  by_cases h : a < 80
  · rw [if_pos (by omega), Nat.sub_zero]
  · rw [if_neg (by omega), hunlisted (by omega), getD_font_of_le font (by omega)]

/-! ## The other state after a reset (R260) -/

/-- The pixels of the cleared framebuffer (R190). -/
@[simp] theorem pixel_blankFb (x y : Nat) : pixel blankFb x y = false := by
  by_cases h : x < 64 ∧ y < 32
  · simp only [pixel, dif_pos h, blankFb, Vector.getElem_replicate]
  · exact pixel_of_not h

@[simp] theorem reset_reg (x : Reg) : State.reset.reg x = 0 := Vector.getElem_replicate _

/-- A state that differs from the one at construction at most in memory and in the model's own inputs and step number holds
the values of R260 for `font`, if its memory reads as the font from address 0. -/
theorem resetValues_of_read {font : Vector Byte 80} {m : Memory} (hm : ∀ a, Memory.read m a = font.toList.getD a 0)
    (ins : List StepInput) (n : Nat) :
    resetValues font { State.reset with mem := m, inputs := ins, stepIndex := n } := by
  refine ⟨fun k hk => ?_, fun a ha _ => ?_, reset_reg, rfl, rfl, rfl, fun k hk => ?_, fun x y _ _ => pixel_blankFb x y,
    rfl, rfl, fun k hk => ?_, rfl⟩
  · exact (hm k).trans (getD_font_of_lt font hk)
  · exact (hm a).trans (getD_font_of_le font ha)
  · exact Vector.getElem_replicate hk
  · exact Vector.getElem_replicate hk

/-- Settles O1: `reset()` and construction differ from each other only in memory and the model's own fields, and both memories
read as the font followed by zeros, the first by the copy (`read_resetWith`), the second because it lists nothing. -/
theorem resetGivesEveryPieceOfState : Obligations.ResetGivesEveryPieceOfState :=
  ⟨fun s font => ⟨s.resetWith font, rfl, resetValues_of_read (read_resetWith s font) s.inputs s.stepIndex⟩,
    resetValues_of_read (m := []) (fun _ => rfl) [] 0⟩

end Sys2Proof.Proofs
end

section
/-! PROOFS. The statements about the decoder and the encoder. -/

open Sys2Proof Sys2Proof.Machine Sys2Proof.Claims

namespace Sys2Proof.Proofs

/-! ## The other families of the decoder (R84) -/

theorem decodeWord_of_family_0 {op : Word} (h : Word.family op = 0x0) : decodeWord op = decodeFamily0 op := by
  simp [decodeWord, h]

theorem decodeWord_of_family_1 {op : Word} (h : Word.family op = 0x1) :
    decodeWord op = some (.jp (Word.fieldNNN op)) := by
  simp [decodeWord, h]

theorem decodeWord_of_family_2 {op : Word} (h : Word.family op = 0x2) :
    decodeWord op = some (.call (Word.fieldNNN op)) := by
  simp [decodeWord, h]

theorem decodeWord_of_family_B {op : Word} (h : Word.family op = 0xB) :
    decodeWord op = some (.jpV0 (Word.fieldNNN op)) := by
  simp [decodeWord, h]

theorem decodeWord_of_family_C {op : Word} (h : Word.family op = 0xC) :
    decodeWord op = some (.rnd (Word.fieldX op) (Word.fieldNN op)) := by
  simp [decodeWord, h]

theorem decodeWord_of_family_D {op : Word} (h : Word.family op = 0xD) :
    decodeWord op = some (.drw (Word.fieldX op) (Word.fieldY op) (Word.fieldN op)) := by
  simp [decodeWord, h]

theorem decodeWord_of_family_E {op : Word} (h : Word.family op = 0xE) : decodeWord op = decodeFamilyE op := by
  simp [decodeWord, h]

theorem decodeWord_of_family_F {op : Word} (h : Word.family op = 0xF) : decodeWord op = decodeFamilyF op := by
  simp [decodeWord, h]

/-! ## Decoding what the encoder wrote -/

/-- The decoder reads every word of the encoder back: the fields of each format are the operands (R81), and the fixed digits
lead through the decoder's tests to the same row. -/
theorem decodeWord_encode (i : Instr) : decodeWord (encode i) = some i := by
  cases i
  case cls | ret => rfl
  case jp | call | ldIndex | jpV0 => simp [encode, decodeWord]
  case seImm | sneImm | ldImm | addImm | rnd => simp [encode, decodeWord]
  case seReg | sneReg | drw => simp [encode, decodeWord]
  case ldReg | orReg | andReg | xorReg | addReg | sub | shr | subn | shl =>
    rw [encode, decodeWord_of_family_8 (family_formatNibbles ..)]
    simp [decodeFamily8]
  case skp | sknp =>
    rw [encode, decodeWord_of_family_E (family_formatXNN ..)]
    simp [decodeFamilyE]
  case ldFromDt | ldKey | ldToDt | ldToSt | addIndex | ldFont | ldBcd | stRegs | ldRegs =>
    rw [encode, decodeWord_of_family_F (family_formatXNN ..)]
    simp [decodeFamilyF]

/-- Settles O7: the two bytes of an encoded instruction make its word again (`wordOfBytes_split`), which decodes to it
(`decodeWord_encode`). -/
theorem decodeOfEncodeIsIdentity : Obligations.DecodeOfEncodeIsIdentity := by
  intro i rest
  refine ⟨decodeWord_encode i, ?_⟩
  simp only [encodeBytes, List.cons_append, List.nil_append, decodeBytes, wordOfBytes_split, decodeWord_encode]

/-! ## Encoding what the decoder read -/

/-- A word taken apart into family, `X` and the low byte (R81). -/
theorem formatXNN_split (op : Word) : formatXNN (Word.family op) (Word.fieldX op) (Word.fieldNN op) = op := by
  conv_rhs => rw [← formatNibbles_split op]
  rw [formatXNN_eq, Word.fieldNN, BitVec.extractLsb'_extractLsb'_of_le (by omega),
    BitVec.extractLsb'_extractLsb'_of_le (by omega)]
  rfl

/-- A word taken apart into family and the 12-bit field (R81). -/
theorem formatNNN_split (op : Word) : formatNNN (Word.family op) (Word.fieldNNN op) = op := by
  conv_rhs => rw [← formatNibbles_split op]
  rw [formatNNN_eq, Word.fieldNNN, BitVec.extractLsb'_extractLsb'_of_le (by omega),
    BitVec.extractLsb'_extractLsb'_of_le (by omega), BitVec.extractLsb'_extractLsb'_of_le (by omega)]
  rfl

theorem nibble_cases (f : BitVec 4) : f = 0x0 ∨ f = 0x1 ∨ f = 0x2 ∨ f = 0x3 ∨ f = 0x4 ∨ f = 0x5 ∨ f = 0x6 ∨ f = 0x7 ∨
    f = 0x8 ∨ f = 0x9 ∨ f = 0xA ∨ f = 0xB ∨ f = 0xC ∨ f = 0xD ∨ f = 0xE ∨ f = 0xF := by
  revert f
  decide

theorem formatNNN_of_family {f : BitVec 4} {op : Word} (h : Word.family op = f) :
    formatNNN f (Word.fieldNNN op) = op := h ▸ formatNNN_split op

theorem formatXNN_of_fields {f : BitVec 4} {nn : Byte} {op : Word} (hf : Word.family op = f)
    (hnn : Word.fieldNN op = nn) : formatXNN f (Word.fieldX op) nn = op := by
  rw [← hf, ← hnn, formatXNN_split]

theorem formatNibbles_of_fields {f n : BitVec 4} {op : Word} (hf : Word.family op = f) (hn : Word.fieldN op = n) :
    formatNibbles f (Word.fieldX op) (Word.fieldY op) n = op := by
  rw [← hf, ← hn, formatNibbles_split]

theorem encode_of_decodeFamily0 {op : Word} {i : Instr} (h : decodeFamily0 op = some i) : encode i = op := by
  simp only [decodeFamily0] at h
  split_ifs at h with h1 h2
  · cases h
    exact h1.symm
  · cases h
    exact h2.symm

theorem encode_of_decodeFamily8 {op : Word} {i : Instr} (hf : Word.family op = 0x8) (h : decodeFamily8 op = some i) :
    encode i = op := by
  simp only [decodeFamily8] at h
  split_ifs at h <;> cases h <;> exact formatNibbles_of_fields hf ‹_›

theorem encode_of_decodeFamilyE {op : Word} {i : Instr} (hf : Word.family op = 0xE) (h : decodeFamilyE op = some i) :
    encode i = op := by
  simp only [decodeFamilyE] at h
  split_ifs at h <;> cases h <;> exact formatXNN_of_fields hf ‹_›

theorem encode_of_decodeFamilyF {op : Word} {i : Instr} (hf : Word.family op = 0xF) (h : decodeFamilyF op = some i) :
    encode i = op := by
  simp only [decodeFamilyF] at h
  split_ifs at h <;> cases h <;> exact formatXNN_of_fields hf ‹_›

/-- Settles O8: the family of the word selects one row or one group of rows, and each row's encoding puts the fields back
between the digits that the decoder has tested. -/
theorem encodeOfDecodeIsIdentity : Obligations.EncodeOfDecodeIsIdentity := by
  intro op i h
  rcases nibble_cases (Word.family op) with
    hf | hf | hf | hf | hf | hf | hf | hf | hf | hf | hf | hf | hf | hf | hf | hf
  · exact encode_of_decodeFamily0 (decodeWord_of_family_0 hf ▸ h)
  · cases (decodeWord_of_family_1 hf).symm.trans h
    exact formatNNN_of_family hf
  · cases (decodeWord_of_family_2 hf).symm.trans h
    exact formatNNN_of_family hf
  · cases (decodeWord_of_family_3 hf).symm.trans h
    exact formatXNN_of_fields hf rfl
  · cases (decodeWord_of_family_4 hf).symm.trans h
    exact formatXNN_of_fields hf rfl
  · rw [decodeWord_of_family_5 hf] at h
    split_ifs at h with hn
    cases h
    exact formatNibbles_of_fields hf hn
  · cases (decodeWord_of_family_6 hf).symm.trans h
    exact formatXNN_of_fields hf rfl
  · cases (decodeWord_of_family_7 hf).symm.trans h
    exact formatXNN_of_fields hf rfl
  · exact encode_of_decodeFamily8 hf (decodeWord_of_family_8 hf ▸ h)
  · rw [decodeWord_of_family_9 hf] at h
    split_ifs at h with hn
    cases h
    exact formatNibbles_of_fields hf hn
  · cases (decodeWord_of_family_A hf).symm.trans h
    exact formatNNN_of_family hf
  · cases (decodeWord_of_family_B hf).symm.trans h
    exact formatNNN_of_family hf
  · cases (decodeWord_of_family_C hf).symm.trans h
    exact formatXNN_of_fields hf rfl
  · cases (decodeWord_of_family_D hf).symm.trans h
    exact formatNibbles_of_fields hf rfl
  · exact encode_of_decodeFamilyE hf (decodeWord_of_family_E hf ▸ h)
  · exact encode_of_decodeFamilyF hf (decodeWord_of_family_F hf ▸ h)

/-- The low byte of a word is its two low nibbles (R81, R82). -/
theorem fieldNN_eq_iff (op : Word) (v : Byte) :
    Word.fieldNN op = v ↔ Word.fieldY op = v.extractLsb' 4 4 ∧ Word.fieldN op = v.extractLsb' 0 4 := by
  constructor
  · rintro rfl
    exact ⟨(BitVec.extractLsb'_extractLsb'_of_le (by omega)).symm, (BitVec.extractLsb'_extractLsb'_of_le (by omega)).symm⟩
  · rintro ⟨hy, hn⟩
    have hop := formatNibbles_split op
    rw [hy, hn, ← formatXNN_eq] at hop
    rw [← hop, fieldNN_formatXNN]

/-- A word is given by its four nibbles. -/
theorem eq_formatNibbles_iff (op : Word) (a b c d : BitVec 4) : op = formatNibbles a b c d ↔
    Word.family op = a ∧ Word.fieldX op = b ∧ Word.fieldY op = c ∧ Word.fieldN op = d := by
  conv_lhs => rw [← formatNibbles_split op]
  exact formatNibbles_inj

/-- A word whose two low nibbles are the byte `y ++ n` (R81). -/
theorem formatXNN_append (f x y n : BitVec 4) : formatXNN f x (y ++ n) = formatNibbles f x y n := by
  rw [formatXNN_eq, BitVec.extractLsb'_append_eq_left, BitVec.extractLsb'_append_eq_right]

/-- A row of R85 accepts only words that decode to the row's own instruction. -/
theorem mnemonic_of_accepts (op : Word) :
    ∀ r ∈ opcodeTable, r.accepts op = true → (decodeWord op).map Instr.mnemonic = some r.mnemonic := by
  rw [opcodeTable_eq, List.forall_mem_append, List.forall_mem_append, List.forall_mem_append]
  simp only [List.forall_mem_cons, List.not_mem_nil, false_imp_iff, implies_true, and_true, accepts_fixed, accepts_family,
    accepts_low, accepts_byte, decide_eq_true_eq, ← eq_formatNibbles_iff]
  refine ⟨⟨⟨⟨?cls, ?ret, ?low⟩, ?alu⟩, ?high⟩, ?misc⟩
  case cls => rintro rfl; rfl
  case ret => rintro rfl; rfl
  case low => and_intros <;> intro h <;> simp [decodeWord, h, Instr.mnemonic]
  case alu => and_intros <;> rintro ⟨hf, hn⟩ <;> simp [decodeWord_of_family_8 hf, decodeFamily8, hn, Instr.mnemonic]
  case high => and_intros <;> intro h <;> simp [decodeWord, decodeFamilyE, fieldNN_eq_iff, h, Instr.mnemonic]
  case misc =>
    and_intros <;> rintro ⟨hf, hy, hn⟩ <;>
      simp [decodeWord_of_family_F hf, decodeFamilyF, fieldNN_eq_iff, hy, hn, Instr.mnemonic]

open Sys2Proof.Laws in
/-- Some row of R85 with the mnemonic of an instruction accepts its word: the law of each constructor, for all of them. -/
theorem encoding_in_table : ∀ i : Instr, EncodingInTable.Statement i
  | .cls => EncodingInTable.cls
  | .ret => EncodingInTable.ret
  | .jp nnn => EncodingInTable.jp nnn
  | .call nnn => EncodingInTable.call nnn
  | .seImm x nn => EncodingInTable.seImm x nn
  | .sneImm x nn => EncodingInTable.sneImm x nn
  | .seReg x y => EncodingInTable.seReg x y
  | .ldImm x nn => EncodingInTable.ldImm x nn
  | .addImm x nn => EncodingInTable.addImm x nn
  | .ldReg x y => EncodingInTable.ldReg x y
  | .orReg x y => EncodingInTable.orReg x y
  | .andReg x y => EncodingInTable.andReg x y
  | .xorReg x y => EncodingInTable.xorReg x y
  | .addReg x y => EncodingInTable.addReg x y
  | .sub x y => EncodingInTable.sub x y
  | .shr x y => EncodingInTable.shr x y
  | .subn x y => EncodingInTable.subn x y
  | .shl x y => EncodingInTable.shl x y
  | .sneReg x y => EncodingInTable.sneReg x y
  | .ldIndex nnn => EncodingInTable.ldIndex nnn
  | .jpV0 nnn => EncodingInTable.jpV0 nnn
  | .rnd x nn => EncodingInTable.rnd x nn
  | .drw x y n => EncodingInTable.drw x y n
  | .skp x => EncodingInTable.skp x
  | .sknp x => EncodingInTable.sknp x
  | .ldFromDt x => EncodingInTable.ldFromDt x
  | .ldKey x => EncodingInTable.ldKey x
  | .ldToDt x => EncodingInTable.ldToDt x
  | .ldToSt x => EncodingInTable.ldToSt x
  | .addIndex x => EncodingInTable.addIndex x
  | .ldFont x => EncodingInTable.ldFont x
  | .ldBcd x => EncodingInTable.ldBcd x
  | .stRegs x => EncodingInTable.stRegs x
  | .ldRegs x => EncodingInTable.ldRegs x

/-- The opcode map names each mnemonic once. -/
theorem nodup_mnemonics : (opcodeTable.map OpcodeRow.mnemonic).Nodup := by decide

/-- A list without repetition whose only member is `a`. -/
theorem eq_singleton_of_nodup {l : List String} {a : String} (hl : l.Nodup) (h : ∀ b, b ∈ l ↔ b = a) : l = [a] :=
  List.perm_singleton.mp ((List.perm_ext_iff_of_nodup hl (List.nodup_singleton a)).mpr fun b => by
    rw [h b, List.mem_singleton])

/-- Settles O9: a row that accepts a word is a row of the decoded instruction (`mnemonic_of_accepts`), and such a row does accept
it, as the word is the instruction's encoding (`encodeOfDecodeIsIdentity`, `encoding_in_table`). Each mnemonic stands in one
row, so the row is the only one. -/
theorem decoderAgreesWithOpcodeMap : Obligations.DecoderAgreesWithOpcodeMap := by
  intro op
  have hsound := mnemonic_of_accepts op
  cases hd : decodeWord op with
  | none =>
    have hnone : opcodeTable.filter (fun r => r.accepts op) = [] :=
      List.filter_eq_nil_iff.mpr fun r hr hacc => by simpa [hd] using hsound r hr hacc
    rw [hnone, List.map_nil]
  | some i =>
    refine eq_singleton_of_nodup (nodup_mnemonics.sublist (List.filter_sublist.map _)) fun m => ?_
    simp only [List.mem_map, List.mem_filter]
    constructor
    · rintro ⟨r, ⟨hr, hacc⟩, rfl⟩
      simpa [hd, eq_comm] using hsound r hr hacc
    · rintro rfl
      obtain ⟨r, hr, hm, hacc⟩ := encoding_in_table i
      rw [encodeOfDecodeIsIdentity op i hd] at hacc
      exact ⟨r, ⟨hr, hacc⟩, hm⟩

/-! ## The Unknown words, family by family (R86 to R91) -/

theorem ite_some_eq_none_iff {c : Prop} [Decidable c] (i : Instr) (r : Option Instr) :
    (if c then some i else r) = none ↔ ¬c ∧ r = none := by
  split <;> simp [*]

theorem decodeFamily0_eq_none (x y n : BitVec 4) : decodeFamily0 (formatNibbles 0x0#4 x y n) = none ↔
    ¬(x = 0x0 ∧ y = 0xE ∧ (n = 0x0 ∨ n = 0xE)) := by
  have hcls : (0x00E0 : Word) = formatNibbles 0x0 0x0 0xE 0x0 := rfl
  have hret : (0x00EE : Word) = formatNibbles 0x0 0x0 0xE 0xE := rfl
  simp only [decodeFamily0, ite_some_eq_none_iff, hcls, hret, formatNibbles_inj]
  tauto

theorem decodeFamily8_eq_none (f x y n : BitVec 4) :
    decodeFamily8 (formatNibbles f x y n) = none ↔ 8 ≤ n.toNat ∧ n ≠ 0xE := by
  simp only [decodeFamily8, ite_some_eq_none_iff, fieldN_formatNibbles]
  revert n
  decide

theorem decodeFamilyE_eq_none (f x y n : BitVec 4) : decodeFamilyE (formatNibbles f x y n) = none ↔
    (y ++ n : BitVec 8) ∉ [0x9E, 0xA1] := by
  simp only [← formatXNN_append, decodeFamilyE, ite_some_eq_none_iff, fieldNN_formatXNN, List.mem_cons, List.not_mem_nil,
    or_false, not_or, and_true]

theorem decodeFamilyF_eq_none (f x y n : BitVec 4) : decodeFamilyF (formatNibbles f x y n) = none ↔
    (y ++ n : BitVec 8) ∉ [0x07, 0x0A, 0x15, 0x18, 0x1E, 0x29, 0x33, 0x55, 0x65] := by
  simp only [← formatXNN_append, decodeFamilyF, ite_some_eq_none_iff, fieldNN_formatXNN, List.mem_cons, List.not_mem_nil,
    or_false, not_or, and_true]

/-- Settles O10: families 0x0, 0x8, 0xE and 0xF have their own tests after the family's, families 0x5 and 0x9 test the low
nibble, and in the ten others every word is an instruction. -/
theorem unknownWordsByFamily : Obligations.UnknownWordsByFamily := by
  intro f x y n
  change decodeWord (formatNibbles f x y n) = none ↔ _
  rcases nibble_cases f with
    rfl | rfl | rfl | rfl | rfl | rfl | rfl | rfl | rfl | rfl | rfl | rfl | rfl | rfl | rfl | rfl <;>
    simp [decodeWord, decodeFamily0_eq_none, decodeFamily8_eq_none, decodeFamilyE_eq_none, decodeFamilyF_eq_none]

/-! ## The words the spec writes out -/

/-- Settles O11: the decoder computes each of the eleven words. -/
theorem writtenWordsDecode : Obligations.WrittenWordsDecode :=
  ⟨rfl, rfl, rfl, rfl, rfl, rfl, rfl, rfl, rfl, rfl, rfl⟩

end Sys2Proof.Proofs
end

section
/-! PROOFS. What an instruction can do: the condition it raises, that it completes, and the statements about the cells it may
write. -/

open Sys2Proof Sys2Proof.Machine Sys2Proof.Claims

namespace Sys2Proof.Proofs

/-! ## The condition of an instruction (R220, R229) -/

theorem conditionOf_congr {s t : State} (hV : t.V = s.V) (hI : t.I = s.I) (hsp : t.sp = s.sp) (i : Instr) :
    conditionOf i t = conditionOf i s := by
  have hreg (x : Reg) : t.reg x = s.reg x := by rw [State.reg, State.reg, hV]
  cases i <;> simp only [conditionOf, hI, hsp, hreg]

theorem extentOutOfBounds_eq_true_iff (x0 y0 : Byte) (n : BitVec 4) :
    extentOutOfBounds x0 y0 n = true ↔ 1 ≤ n.toNat ∧ (56 < x0.toNat ∨ 32 < y0.toNat + n.toNat) := decide_eq_true_iff

theorem extentOutOfBounds_eq_false_iff (x0 y0 : Byte) (n : BitVec 4) :
    extentOutOfBounds x0 y0 n = false ↔ ¬(1 ≤ n.toNat ∧ (56 < x0.toNat ∨ 32 < y0.toNat + n.toNat)) := decide_eq_false_iff_not

/-- An instruction that answers a next state raises the condition of R220's table and does nothing else, or the table gives
none and it leaves the event as it was. -/
theorem exec_next_cases {i : Instr} {s t : State} (h : exec i s = .next t) :
    (∃ c, conditionOf i s = some c ∧ t = s.setEvent (some c)) ∨ (conditionOf i s = none ∧ t.event = s.event) := by
  cases i
  case ret => exact (execRet_cases h).imp (fun ⟨h0, ht⟩ => ⟨_, if_pos h0, ht⟩) fun ⟨h0, ht⟩ => ⟨if_neg (by omega), ht ▸ rfl⟩
  case call =>
    exact (execCall_cases h).imp (fun ⟨h0, ht⟩ => ⟨_, if_pos h0, ht⟩) fun ⟨h0, ht⟩ => ⟨if_neg (by omega), ht ▸ rfl⟩
  case drw x y n =>
    rcases execDrw_cases h with ⟨hb, ht⟩ | ⟨hb, he, ht⟩ | ⟨hb, he, ht⟩
    · exact .inl ⟨_, if_pos (by omega), ht⟩
    · rw [extentOutOfBounds_eq_true_iff] at he
      exact .inl ⟨_, (if_neg (by omega)).trans (if_pos he), ht⟩
    · rw [extentOutOfBounds_eq_false_iff] at he
      exact .inr ⟨(if_neg (by omega)).trans (if_neg he), ht ▸ rfl⟩
  case skp =>
    exact (execSkp_cases h).imp (fun ⟨h0, ht⟩ => ⟨_, if_pos h0, ht⟩) fun ⟨h0, ht⟩ => ⟨if_neg (by omega), ht ▸ rfl⟩
  case sknp =>
    exact (execSknp_cases h).imp (fun ⟨h0, ht⟩ => ⟨_, if_pos h0, ht⟩) fun ⟨h0, ht⟩ => ⟨if_neg (by omega), ht ▸ rfl⟩
  case ldBcd =>
    exact (execLdBcd_cases h).imp (fun ⟨h0, ht⟩ => ⟨_, if_pos (by omega), ht⟩) fun ⟨h0, ht⟩ => ⟨if_neg (by omega), ht ▸ rfl⟩
  case stRegs =>
    exact (execStRegs_cases h).imp (fun ⟨h0, ht⟩ => ⟨_, if_pos (by omega), ht⟩) fun ⟨h0, ht⟩ => ⟨if_neg (by omega), ht ▸ rfl⟩
  case ldRegs =>
    exact (execLdRegs_cases h).imp (fun ⟨h0, ht⟩ => ⟨_, if_pos (by omega), ht⟩) fun ⟨h0, ht⟩ => ⟨if_neg (by omega), ht ▸ rfl⟩
  case ldKey =>
    rcases execLdKey_cases h with ⟨_, ht⟩ | ⟨_, _, ht⟩
    · exact .inr ⟨rfl, ht ▸ rfl⟩
    · exact .inr ⟨rfl, ht ▸ rfl⟩
  -- The other instructions test nothing that can raise: each has one outcome, which `exec` computes.
  all_goals
    obtain rfl := Host.Outcome.next.inj h
    exact .inr ⟨rfl, rfl⟩

/-- Every instruction answers a next state: no arm of `exec` is refused, and there is no fault (R119). -/
theorem exec_completes (i : Instr) (s : State) : ∃ t, exec i s = .next t := by
  cases i
  case ret => rw [exec_ret, execRet]; split <;> exact ⟨_, rfl⟩
  case call => rw [exec_call, execCall]; split <;> exact ⟨_, rfl⟩
  case drw =>
    rw [exec_drw, execDrw]
    split
    · exact ⟨_, rfl⟩
    · split <;> exact ⟨_, rfl⟩
  case skp => rw [exec_skp, execSkp]; split <;> exact ⟨_, rfl⟩
  case sknp => rw [exec_sknp, execSknp]; split <;> exact ⟨_, rfl⟩
  case ldKey => rw [exec_ldKey, execLdKey]; split <;> exact ⟨_, rfl⟩
  case ldBcd => rw [exec_ldBcd, execLdBcd]; split <;> exact ⟨_, rfl⟩
  case stRegs => rw [exec_stRegs, execStRegs]; split <;> exact ⟨_, rfl⟩
  case ldRegs => rw [exec_ldRegs, execLdRegs]; split <;> exact ⟨_, rfl⟩
  all_goals exact ⟨_, rfl⟩

/-- Where the table gives a condition, the instruction raises it and does nothing else (R15). -/
theorem exec_of_conditionOf {i : Instr} {s : State} {c : Condition} (h : conditionOf i s = some c) :
    exec i s = .next (s.setEvent (some c)) := by
  obtain ⟨t, ht⟩ := exec_completes i s
  rcases exec_next_cases ht with ⟨c', hc, rfl⟩ | ⟨hnone, -⟩
  · rwa [Option.some.inj (h.symm.trans hc)]
  · exact absurd (h.symm.trans hnone) nofun

/-! ## The cells other than `pc`, the registers and the event -/

/-- Which cells may differ between the states `s` and `t` before and after instruction `i`: each one only where `i` is an
instruction that the spec names for it (R22 to R30); the latches and the model's own inputs and step number never. -/
structure WritesOnlyNamedCells (i : Instr) (s t : State) : Prop where
  mem : t.mem ≠ s.mem → (∃ x, i = .ldBcd x) ∨ (∃ x, i = .stRegs x)
  stack : t.stack ≠ s.stack → ∃ a, i = .call a
  sp : t.sp ≠ s.sp → i = .ret ∨ ∃ a, i = .call a
  fb : t.fb ≠ s.fb → i = .cls ∨ ∃ x y n, i = .drw x y n
  redraw : t.redraw ≠ s.redraw → t.redraw = true ∧ ∃ x y n, i = .drw x y n
  DT : t.DT ≠ s.DT → ∃ x, i = .ldToDt x
  ST : t.ST ≠ s.ST → ∃ x, i = .ldToSt x
  I : t.I ≠ s.I → (∃ a, i = .ldIndex a) ∨ (∃ x, i = .addIndex x) ∨ (∃ x, i = .ldFont x) ∨ (∃ x, i = .stRegs x) ∨
    (∃ x, i = .ldRegs x)
  key : t.key = s.key
  inputs : t.inputs = s.inputs
  stepIndex : t.stepIndex = s.stepIndex

/-- Every instruction writes only the cells named for it: in each of its outcomes the others are those of the state before. -/
theorem exec_writesOnlyNamedCells {i : Instr} {s t : State} (h : exec i s = .next t) : WritesOnlyNamedCells i s t := by
  cases i
  case ret => rcases execRet_cases h with ⟨_, rfl⟩ | ⟨_, rfl⟩ <;> constructor <;> simp
  case call => rcases execCall_cases h with ⟨_, rfl⟩ | ⟨_, rfl⟩ <;> constructor <;> simp
  case drw => rcases execDrw_cases h with ⟨_, rfl⟩ | ⟨_, _, rfl⟩ | ⟨_, _, rfl⟩ <;> constructor <;> simp
  case skp => rcases execSkp_cases h with ⟨_, rfl⟩ | ⟨_, rfl⟩ <;> constructor <;> simp
  case sknp => rcases execSknp_cases h with ⟨_, rfl⟩ | ⟨_, rfl⟩ <;> constructor <;> simp
  case ldKey => rcases execLdKey_cases h with ⟨_, rfl⟩ | ⟨_, _, rfl⟩ <;> constructor <;> simp
  case ldBcd => rcases execLdBcd_cases h with ⟨_, rfl⟩ | ⟨_, rfl⟩ <;> constructor <;> simp
  case stRegs => rcases execStRegs_cases h with ⟨_, rfl⟩ | ⟨_, rfl⟩ <;> constructor <;> simp
  case ldRegs => rcases execLdRegs_cases h with ⟨_, rfl⟩ | ⟨_, rfl⟩ <;> constructor <;> simp
  -- The other instructions have one outcome each, which `exec` computes.
  all_goals
    obtain rfl := Host.Outcome.next.inj h
    constructor <;> simp

/-- Settles O22: the frame of `exec`, clause by clause. -/
theorem onlyNamedInstructionsWriteEachCell : Obligations.OnlyNamedInstructionsWriteEachCell := by
  intro i s t h
  have w := exec_writesOnlyNamedCells h
  exact ⟨w.mem, w.stack, w.sp, w.fb, w.redraw, w.DT, w.ST, w.I, w.key⟩

/-- Settles O53: the call writes the flag alone, and of the instructions only `DXYN` writes it (`exec_writesOnlyNamedCells`). -/
theorem takeRedrawFlagReadsAndClears : Obligations.TakeRedrawFlagReadsAndClears := by
  intro s
  refine ⟨s.setRedraw false, rfl, rfl, rfl, rfl, fun i u v hu hi h => ?_⟩
  by_contra hne
  obtain ⟨-, x, y, n, rfl⟩ := (exec_writesOnlyNamedCells h).redraw (hu ▸ hne)
  exact hi x y n rfl

/-! ## `VF` (R22) -/

/-- A write to one register followed by a jump changes no other register. -/
theorem eq_of_reg_setReg_ne {s : State} {x r : Reg} {b : Byte} {p : Word} (h : ((s.setReg x b).setPc p).reg r ≠ s.reg r) :
    x = r := by
  by_contra hx
  exact h (State.reg_setReg_ne s (Ne.symm hx) b)

/-- `FX65` writes the registers up to `X` from the bytes at `I`, and no other register (R175). -/
theorem reg_of_loadRegs (s : State) (x r : Reg) (m : Memory) (a : Nat) :
    State.reg { s with V := loadRegs s.V 0 (Memory.readBytes m a (x.toNat + 1)) } r =
      if r.toNat ≤ x.toNat then Memory.read m (a + r.toNat) else s.reg r := by
  rw [State.reg, getElem_loadRegs, Memory.length_readBytes]
  by_cases h : r.toNat ≤ x.toNat
  · rw [if_pos h, if_pos (by omega), Memory.getD_readBytes _ _ _ _ (by omega), Nat.sub_zero]
  · rw [if_neg h, if_neg (by omega), State.reg]

/-- An instruction that changes `VF` is one of the six of R22's table or names register 15 as its destination. -/
theorem exec_changes_vf {i : Instr} {s t : State} (h : exec i s = .next t) (hne : t.reg 15 ≠ s.reg 15) :
    (∃ x y, i = .addReg x y ∨ i = .sub x y ∨ i = .shr x y ∨ i = .subn x y ∨ i = .shl x y ∨ ∃ n, i = .drw x y n) ∨
    (∃ nn, i = .ldImm 15 nn ∨ i = .addImm 15 nn ∨ i = .rnd 15 nn) ∨
    (∃ y, i = .ldReg 15 y ∨ i = .orReg 15 y ∨ i = .andReg 15 y ∨ i = .xorReg 15 y) ∨
    i = .ldFromDt 15 ∨ i = .ldKey 15 ∨ i = .ldRegs 15 := by
  cases i
  case addReg | sub | shr | subn | shl | drw => simp
  case ldImm | addImm | rnd | ldReg | orReg | andReg | xorReg | ldFromDt =>
    obtain rfl := Host.Outcome.next.inj h
    obtain rfl := eq_of_reg_setReg_ne hne
    simp
  case ldKey =>
    rcases execLdKey_cases h with ⟨_, rfl⟩ | ⟨_, _, rfl⟩
    · exact absurd rfl hne
    · obtain rfl := eq_of_reg_setReg_ne hne
      simp
  case ldRegs x =>
    rcases execLdRegs_cases h with ⟨_, rfl⟩ | ⟨_, rfl⟩
    · exact absurd rfl hne
    · have hx : (15 : Reg).toNat ≤ x.toNat := by
        by_contra hlt
        exact hne ((reg_of_loadRegs s x 15 s.mem s.I.toNat).trans (if_neg hlt))
      obtain rfl : x = 15 := BitVec.eq_of_toNat_eq (by have := x.isLt; simp at hx; simp; omega)
      simp
  case ret => rcases execRet_cases h with ⟨_, rfl⟩ | ⟨_, rfl⟩ <;> exact absurd rfl hne
  case call => rcases execCall_cases h with ⟨_, rfl⟩ | ⟨_, rfl⟩ <;> exact absurd rfl hne
  case skp => rcases execSkp_cases h with ⟨_, rfl⟩ | ⟨_, rfl⟩ <;> exact absurd rfl hne
  case sknp => rcases execSknp_cases h with ⟨_, rfl⟩ | ⟨_, rfl⟩ <;> exact absurd rfl hne
  case ldBcd => rcases execLdBcd_cases h with ⟨_, rfl⟩ | ⟨_, rfl⟩ <;> exact absurd rfl hne
  case stRegs => rcases execStRegs_cases h with ⟨_, rfl⟩ | ⟨_, rfl⟩ <;> exact absurd rfl hne
  -- The other instructions have one outcome each, which leaves the registers as they were.
  all_goals
    obtain rfl := Host.Outcome.next.inj h
    exact absurd rfl hne

/-! ## A draw in bounds (R191, R194) -/

theorem drawFits_iff (s : State) (x y : Reg) (n : BitVec 4) : drawFits s x y n ↔
    n.toNat = 0 ∨ (s.I.toNat + n.toNat ≤ 4096 ∧ (s.reg x).toNat ≤ 56 ∧ (s.reg y).toNat + n.toNat ≤ 32) := by
  rw [drawFits, ← BitVec.toNat_inj]
  rfl

/-- A draw in bounds completes with the drawing in the framebuffer and its collision in `VF` (R191). -/
theorem exec_drw_of_fits {x y : Reg} {n : BitVec 4} {s : State} (h : drawFits s x y n) : exec (.drw x y n) s = .next { s with
    fb := (drawing x y n s).fb
    V := s.V.set 15 (flagByte (drawing x y n s).collision)
    redraw := true
    pc := s.pc + 2 } := by
  rw [drawFits_iff] at h
  obtain ⟨t, ht⟩ := exec_completes (.drw x y n) s
  rcases execDrw_cases ht with ⟨hb, _⟩ | ⟨_, he, _⟩ | ⟨_, _, rfl⟩
  · omega
  · rw [extentOutOfBounds_eq_true_iff] at he
    omega
  · exact ht

/-- A draw for which R220's table gives no condition is in bounds. -/
theorem drawFits_of_no_condition {x y : Reg} {n : BitVec 4} {s : State} (h : conditionOf (.drw x y n) s = none) :
    drawFits s x y n := by
  rw [drawFits_iff]
  simp only [conditionOf] at h
  split_ifs at h
  omega

/-! ## The flag -/

theorem flagByte_eq_zero_or_one (b : Bool) : flagByte b = 0 ∨ flagByte b = 1 := by
  cases b
  · exact .inl rfl
  · exact .inr rfl

/-- Settles O23: no other instruction changes `VF` (`exec_changes_vf`), and the last register write of each of the six is a flag
byte to register 15 (R163, R191). -/
theorem onlyFlagInstructionsTouchVF : Obligations.OnlyFlagInstructionsTouchVF := by
  intro i s t h
  refine ⟨exec_changes_vf h, ?_⟩
  rintro x y (rfl | rfl | rfl | rfl | rfl | ⟨n, rfl, hc⟩)
  on_goal 6 =>
    cases (exec_drw_of_fits (drawFits_of_no_condition hc)).symm.trans h
    exact (State.reg_setReg_same _ Reg.vf _).symm ▸ flagByte_eq_zero_or_one _
  all_goals
    obtain rfl := Host.Outcome.next.inj h
    exact (State.reg_setReg_same _ Reg.vf _).symm ▸ flagByte_eq_zero_or_one _

end Sys2Proof.Proofs
end

section
/-! PROOFS. The statements about a step: that it completes, what it reports, and what it does in a stall or a wait. -/

open Sys2Proof Sys2Proof.Machine Sys2Proof.Claims

namespace Sys2Proof.Proofs

/-! ## The phases of a step (R110 to R115) -/

theorem isWaitStep_eq_true_iff (s : State) : isWaitStep s = true ↔
    ∃ op x, fetch s = .ok op ∧ decodeWord op = some (.ldKey x) ∧ ∀ (k : Nat) (h : k < 16), s.key[k] = false := by
  unfold isWaitStep
  cases hf : fetch s with
  | error c => simp
  | ok op =>
    cases hd : decodeWord op with
    | none => simp [hd]
    | some i => cases i <;> simp [hd, noKeyDown_iff]

theorem instructionPhase_of_fetch_error {s : State} {c : Condition} (hf : fetch s = .error c) :
    instructionPhase s = .next (s.setEvent (some c)) := by
  rw [instructionPhase, hf]
  rfl

theorem instructionPhase_of_unknown {s : State} {op : Word} (hf : fetch s = .ok op) (hd : decodeWord op = none) :
    instructionPhase s = .next (s.setEvent (some (.unknownOpcode op))) := by
  simp only [instructionPhase, hf, hd, raise_eq]

theorem instructionPhase_of_decode {s : State} {op : Word} {i : Instr} (hf : fetch s = .ok op)
    (hd : decodeWord op = some i) : instructionPhase s = exec i s := by
  simp only [instructionPhase, hf, hd]

theorem instructionPhase_completes (s : State) : ∃ u, instructionPhase s = .next u := by
  cases hf : fetch s with
  | error c => exact ⟨_, instructionPhase_of_fetch_error hf⟩
  | ok op =>
    cases hd : decodeWord op with
    | none => exact ⟨_, instructionPhase_of_unknown hf hd⟩
    | some i => exact (instructionPhase_of_decode hf hd).symm ▸ exec_completes i s

/-- A wait step clears the event, uses up its inputs, and changes nothing else (R115). -/
theorem step_of_isWaitStep {s : State} (h : isWaitStep s = true) : step s = .next (s.setEvent none).consumeInput := if_pos h

/-- Any other step runs the instruction phase and then the timer phase (R110, R114). -/
theorem step_of_instructionPhase {s u : State} (hw : isWaitStep s = false)
    (hu : instructionPhase (s.setEvent none) = .next u) : step s = .next (timerPhase s.tickIn u).consumeInput := by
  have hstep : step s = finishStep s.tickIn (instructionPhase (s.setEvent none)) := if_neg (hw ▸ Bool.false_ne_true)
  rw [hstep, hu, finishStep]

/-- Settles O14: a wait step answers at once; in any other step the instruction phase answers, and the timer phase always does. -/
theorem everyStepCompletes : Obligations.EveryStepCompletes := by
  intro s
  cases hw : isWaitStep s with
  | true => exact ⟨_, step_of_isWaitStep hw⟩
  | false =>
    obtain ⟨u, hu⟩ := instructionPhase_completes (s.setEvent none)
    exact ⟨_, step_of_instructionPhase hw hu⟩

/-- The timer phase counts a timer down as R114 and R235 say. -/
theorem decay_eq_countdown (tick : Bool) (v : Byte) : decay tick v = countdown tick v := by
  cases tick
  · exact decay_false v
  · refine BitVec.eq_of_toNat_eq ?_
    rw [toNat_decay_true, countdown, if_pos rfl, BitVec.toNat_ofNat, Nat.mod_eq_of_lt (by omega)]

/-- What the timer phase and the use of the inputs leave of a state. -/
theorem timerPhase_consumeInput_eq (tick : Bool) (u : State) : (timerPhase tick u).consumeInput = { u with
    DT := countdown tick u.DT
    ST := countdown tick u.ST
    inputs := u.inputs.tail
    stepIndex := u.stepIndex + 1 } := by
  rw [← decay_eq_countdown, ← decay_eq_countdown]
  rfl

/-- A step whose word decodes to `FX0A` with a latch set, or to anything else, is no wait step. -/
theorem isWaitStep_eq_false_of_decode {s : State} {op : Word} {i : Instr} (hf : fetch s = .ok op)
    (hd : decodeWord op = some i) (hkey : (∃ x, i = .ldKey x) → ∃ (k : Nat) (h : k < 16), s.key[k] = true) :
    isWaitStep s = false := by
  refine Bool.eq_false_iff.mpr fun hw => ?_
  obtain ⟨op', x, hf', hd', hopen⟩ := (isWaitStep_eq_true_iff s).mp hw
  cases hf.symm.trans hf'
  cases hd.symm.trans hd'
  obtain ⟨k, hk, hpressed⟩ := hkey ⟨x, rfl⟩
  exact Bool.false_ne_true ((hopen k hk).symm.trans hpressed)

/-- A step that is no wait step, over the instruction it runs. -/
theorem step_of_exec {s t : State} {op : Word} {i : Instr} (hf : fetch s = .ok op) (hd : decodeWord op = some i)
    (hw : isWaitStep s = false) (ht : exec i (s.setEvent none) = .next t) :
    step s = .next (timerPhase s.tickIn t).consumeInput :=
  step_of_instructionPhase hw ((instructionPhase_of_decode (s := s.setEvent none) hf hd).trans ht)

/-- Settles O13: the instruction answers (`exec_completes`), and a step that is no wait step is its phase followed by the timer
phase (`step_of_exec`). -/
theorem stepRunsDecodedInstruction : Obligations.StepRunsDecodedInstruction := by
  intro s op i hf hd hkey
  obtain ⟨t, ht⟩ := exec_completes i (s.setEvent none)
  have w := exec_writesOnlyNamedCells ht
  have hstep := step_of_exec hf hd (isWaitStep_eq_false_of_decode hf hd hkey) ht
  rw [timerPhase_consumeInput_eq, w.inputs, w.stepIndex] at hstep
  exact ⟨t, ht, hstep⟩

/-! ## The event of a step (R220, R229) -/

theorem eventOf_of_fetch_error {s : State} {c : Condition} (hf : fetch s = .error c) : eventOf s = some c := by
  obtain ⟨hpc, rfl⟩ := (fetch_eq_error s c).mp hf
  exact if_pos hpc

theorem eventOf_of_unknown {s : State} {op : Word} (hf : fetch s = .ok op) (hd : decodeWord op = none) :
    eventOf s = some (.unknownOpcode op) := by
  obtain ⟨hpc, rfl⟩ := (fetch_eq_ok s op).mp hf
  rw [eventOf, if_neg (by omega), hd]

theorem eventOf_of_decode {s : State} {op : Word} {i : Instr} (hf : fetch s = .ok op) (hd : decodeWord op = some i) :
    eventOf s = conditionOf i s := by
  obtain ⟨hpc, rfl⟩ := (fetch_eq_ok s op).mp hf
  rw [eventOf, if_neg (by omega), hd]

/-- The event of a step depends on nothing but memory, the registers, `I`, `pc` and `sp`. -/
theorem eventOf_congr {s t : State} (hmem : t.mem = s.mem) (hV : t.V = s.V) (hI : t.I = s.I) (hpc : t.pc = s.pc)
    (hsp : t.sp = s.sp) : eventOf t = eventOf s := by
  simp only [eventOf, hmem, hpc, conditionOf_congr hV hI hsp]

/-- The instruction phase raises the condition of the table and does nothing else, or the table gives none and the event stays
as it was. -/
theorem instructionPhase_next_cases {s u : State} (h : instructionPhase s = .next u) :
    (∃ c, eventOf s = some c ∧ u = s.setEvent (some c)) ∨ (eventOf s = none ∧ u.event = s.event) := by
  rcases instructionPhase_cases h with ⟨c, hf, hu⟩ | ⟨op, hf, hd, hu⟩ | ⟨op, i, hf, hd, hexec⟩
  · exact .inl ⟨c, eventOf_of_fetch_error hf, hu⟩
  · exact .inl ⟨_, eventOf_of_unknown hf hd, hu⟩
  · rw [eventOf_of_decode hf hd]
    exact exec_next_cases hexec

/-- A wait step reports nothing, and the table gives nothing for it. -/
theorem eventOf_of_isWaitStep {s : State} (h : isWaitStep s = true) : eventOf s = none := by
  obtain ⟨op, x, hf, hd, -⟩ := (isWaitStep_eq_true_iff s).mp h
  exact eventOf_of_decode hf hd

/-- A step reports the condition of the table and, its timers and the model's own fields apart, does nothing else; or the table
gives none and it reports none. -/
theorem step_next_eventOf_cases {s t : State} (h : step s = .next t) :
    (∃ c, eventOf s = some c ∧ t = (timerPhase s.tickIn (s.setEvent (some c))).consumeInput) ∨
    (eventOf s = none ∧ t.event = none) := by
  have hclear : eventOf (s.setEvent none) = eventOf s := eventOf_congr rfl rfl rfl rfl rfl
  rcases step_next_cases h with ⟨hw, rfl⟩ | ⟨_, u, hu, rfl⟩
  · exact .inr ⟨eventOf_of_isWaitStep hw, rfl⟩
  · rw [← hclear]
    rcases instructionPhase_next_cases hu with ⟨c, hc, rfl⟩ | ⟨hnone, hkept⟩
    · exact .inl ⟨c, hc, rfl⟩
    · exact .inr ⟨hnone, hkept⟩

theorem step_event {s t : State} (h : step s = .next t) : t.event = eventOf s := by
  rcases step_next_eventOf_cases h with ⟨c, hc, rfl⟩ | ⟨hnone, hevent⟩
  · exact hc.symm
  · rw [hevent, hnone]

/-- Settles O15: every step answers (`everyStepCompletes`), and its event is the table's (`step_event`). -/
theorem stepEventFollowsConditionTable : Obligations.StepEventFollowsConditionTable := by
  intro s
  obtain ⟨t, ht⟩ := everyStepCompletes s
  exact ⟨t, ht, step_event ht⟩

/-- Settles O16: of the two ways a step can end (`step_next_eventOf_cases`), the one with an event is the old state with the event
set and the timer phase run. -/
theorem conditionLeavesBlockUnchanged : Obligations.ConditionLeavesBlockUnchanged := by
  intro s t c h hevent
  rcases step_next_eventOf_cases h with ⟨c', _, rfl⟩ | ⟨_, hnone⟩
  · cases hevent
    exact timerPhase_consumeInput_eq ..
  · exact absurd (hnone.symm.trans hevent) nofun

/-! ## A condition persists (R232) -/

theorem stalled_of_eventOf {s : State} {c : Condition} (h : eventOf s = some c) : Stalled s c := by
  obtain ⟨t, ht, hevent⟩ := stepEventFollowsConditionTable s
  exact ⟨t, ht, hevent.trans h⟩

theorem eventOf_of_step_reports {s t : State} {c : Condition} (h : step s = .next t) (hevent : t.event = some c) :
    eventOf t = some c := by
  rw [← hevent, step_event h]
  conv_lhs => rw [conditionLeavesBlockUnchanged s t c h hevent]
  exact eventOf_congr rfl rfl rfl rfl rfl

theorem setKey_of_lt {code : Nat} {pressed : Bool} {s : State} (h : code < 16) :
    setKey code pressed s = .next { s with key := s.key.set code pressed h } := dif_pos h

theorem setKey_of_le {code : Nat} {pressed : Bool} {s : State} (h : 16 ≤ code) :
    setKey code pressed s = .refused (.setKeyOutsideInterface code) := dif_neg (Nat.not_lt_of_le h)

/-- No call that `keepsStall` names writes anything on which the event of the next step depends. -/
theorem perform_keeps_eventOf {k : HostCall} {s : State} {a : HostAnswer} {c : Condition} (hk : keepsStall k = true)
    (h : perform k s = .next a) (hs : eventOf s = some c) : eventOf a.state = some c := by
  cases k with
  | reset font => exact absurd hk nofun
  | loadProgram bytes => exact absurd hk nofun
  | step tick rnd =>
    obtain ⟨t, ht, hevent⟩ := stepEventFollowsConditionTable { s with inputs := ⟨tick, rnd⟩ :: s.inputs }
    have hs' : eventOf { s with inputs := ⟨tick, rnd⟩ :: s.inputs } = some c :=
      (eventOf_congr rfl rfl rfl rfl rfl).trans hs
    rw [perform, stepWith, ht] at h
    cases h
    exact eventOf_of_step_reports ht (hevent.trans hs')
  | setKey code pressed =>
    rw [perform, setKey_of_lt (of_decide_eq_true hk)] at h
    cases h
    exact (eventOf_congr rfl rfl rfl rfl rfl).trans hs
  | framebuffer => cases h; exact hs
  | takeRedrawFlag =>
    cases h
    exact (eventOf_congr rfl rfl rfl rfl rfl).trans hs
  | toneActive => cases h; exact hs

theorem performAll_keeps_eventOf {calls : List HostCall} {s u : State} {c : Condition} (hall : calls.all keepsStall = true)
    (h : performAll calls s = .next u) (hs : eventOf s = some c) : eventOf u = some c := by
  induction calls generalizing s with
  | nil => cases h; exact hs
  | cons k rest ih =>
    rw [List.all_cons, Bool.and_eq_true] at hall
    cases hk : perform k s with
    | next a =>
      rw [performAll, hk] at h
      exact ih hall.2 h (perform_keeps_eventOf hall.1 hk hs)
    | fault r => exact nomatch r
    | refused r => rw [performAll, hk] at h; exact absurd h nofun

/-- Settles O17: what the next step reports is a function of memory, the registers, `I`, `pc` and `sp` (`eventOf_congr`); the step
that reported kept them, and so does every call of the list. -/
theorem conditionPersists : Obligations.ConditionPersists := by
  intro s t u c calls hstep hevent hall hcalls
  exact stalled_of_eventOf (performAll_keeps_eventOf hall hcalls (eventOf_of_step_reports hstep hevent))

/-! ## The wait for a key (R115, R204) -/

/-- Settles O18: each of the steps is a wait step again, since a wait step keeps the fetched word and the latches. -/
theorem keyWaitChangesNothing : Obligations.KeyWaitChangesNothing := by
  intro n
  induction n with
  | zero => intro s op x _ _ _; rfl
  | succ n ih =>
    intro s op x hf hd hopen
    have hstep := step_of_isWaitStep ((isWaitStep_eq_true_iff s).mpr ⟨op, x, hf, hd, hopen⟩)
    rw [runSteps_succ hstep, ih (s.setEvent none).consumeInput op x hf hd hopen]
    simp only [State.consumeInput, State.setEvent, List.drop_tail, if_neg (Nat.succ_ne_zero n), ite_self,
      Nat.add_right_comm, Nat.add_assoc]

end Sys2Proof.Proofs
end

section
/-! PROOFS. The statements about the two invariants: memory in canonical form, and the reach of `pc` and the stack. -/

open Sys2Proof Sys2Proof.Machine Sys2Proof.Claims

namespace Sys2Proof.Proofs

/-! ## Memory stays canonical (log 32) -/

/-- Only `FX33` and `FX55` write memory, and their bound keeps them inside the address space. -/
theorem exec_keeps_memOk {i : Instr} {s t : State} (h : exec i s = .next t) (hs : s.memOk) : t.memOk := by
  by_cases hmem : t.mem = s.mem
  · rwa [State.memOk, hmem]
  · rcases (exec_writesOnlyNamedCells h).mem hmem with ⟨x, rfl⟩ | ⟨x, rfl⟩
    · rcases execLdBcd_cases h with ⟨_, rfl⟩ | ⟨hb, rfl⟩
      · exact hs
      · exact Memory.wf_writeBytes _ hs hb
    · rcases execStRegs_cases h with ⟨_, rfl⟩ | ⟨hb, rfl⟩
      · exact hs
      · exact Memory.wf_writeBytes _ hs (by rwa [length_firstRegs])

theorem step_keeps_memOk {s t : State} (h : step s = .next t) (hs : s.memOk) : t.memOk := by
  rcases step_next_cases h with ⟨_, rfl⟩ | ⟨_, u, hu, rfl⟩
  · exact hs
  · rcases instructionPhase_cases hu with ⟨_, _, rfl⟩ | ⟨_, _, _, rfl⟩ | ⟨_, i, _, _, hexec⟩
    · exact hs
    · exact hs
    · have hmem : u.memOk := exec_keeps_memOk (s := s.setEvent none) hexec hs
      exact hmem

/-- Settles O3: a step writes memory at most through one instruction (`exec_keeps_memOk`). -/
theorem everyStepKeepsMemoryCanonical : Obligations.EveryStepKeepsMemoryCanonical :=
  fun _ _ hs h => step_keeps_memOk h hs

/-! ## The reach of `pc` and the stack entries (R24, R130) -/

theorem toNat_zext16 (v : Byte) : (zext16 v).toNat = v.toNat := BitVec.toNat_setWidth_of_le (by decide)

/-- The target of `BNNN` as an integer: the sum does not wrap (R137). -/
@[simp] theorem toNat_indexedTarget (v : Byte) (nnn : BitVec 12) : (indexedTarget v nnn).toNat = v.toNat + nnn.toNat := by
  rw [indexedTarget, BitVec.toNat_add, toNat_zext16, toNat_addressImm, Nat.mod_eq_of_lt (by omega)]

/-- Where an instruction can lead: it stays, goes on by one word or two, or takes an address operand, an indexed one, or a stack
entry (R113). -/
theorem exec_pc_cases {i : Instr} {s t : State} (h : exec i s = .next t) :
    t.pc = s.pc ∨ (t.pc = s.pc + 2 ∨ t.pc = s.pc + 4) ∨ (∃ nnn, t.pc = addressImm nnn) ∨
    (∃ v nnn, t.pc = indexedTarget v nnn) ∨ ∃ (k : Nat) (hk : k < 16), t.pc = s.stack[k] := by
  cases i
  case ret =>
    rcases execRet_cases h with ⟨_, rfl⟩ | ⟨_, rfl⟩
    · exact .inl rfl
    · exact .inr (.inr (.inr (.inr ⟨_, _, rfl⟩)))
  case call =>
    rcases execCall_cases h with ⟨_, rfl⟩ | ⟨_, rfl⟩
    · exact .inl rfl
    · exact .inr (.inr (.inl ⟨_, rfl⟩))
  case jp =>
    obtain rfl := Host.Outcome.next.inj h
    exact .inr (.inr (.inl ⟨_, rfl⟩))
  case jpV0 =>
    obtain rfl := Host.Outcome.next.inj h
    exact .inr (.inr (.inr (.inl ⟨_, _, rfl⟩)))
  case seImm | sneImm | seReg | sneReg =>
    obtain rfl := Host.Outcome.next.inj h
    exact .inr (.inl (ite_eq_or_eq ..).symm)
  case skp =>
    rcases execSkp_cases h with ⟨_, rfl⟩ | ⟨_, rfl⟩
    · exact .inl rfl
    · exact .inr (.inl (ite_eq_or_eq ..).symm)
  case sknp =>
    rcases execSknp_cases h with ⟨_, rfl⟩ | ⟨_, rfl⟩
    · exact .inl rfl
    · exact .inr (.inl (ite_eq_or_eq ..).symm)
  case drw => rcases execDrw_cases h with ⟨_, rfl⟩ | ⟨_, _, rfl⟩ | ⟨_, _, rfl⟩ <;> simp
  case ldKey => rcases execLdKey_cases h with ⟨_, rfl⟩ | ⟨_, _, rfl⟩ <;> simp
  case ldBcd => rcases execLdBcd_cases h with ⟨_, rfl⟩ | ⟨_, rfl⟩ <;> simp
  case stRegs => rcases execStRegs_cases h with ⟨_, rfl⟩ | ⟨_, rfl⟩ <;> simp
  case ldRegs => rcases execLdRegs_cases h with ⟨_, rfl⟩ | ⟨_, rfl⟩ <;> simp
  -- The other instructions have one outcome each, at the next word.
  all_goals
    obtain rfl := Host.Outcome.next.inj h
    exact .inr (.inl (.inl rfl))

/-- From a fetchable `pc` no instruction leads out of reach: 0x10FE is the largest target of `BNNN`, 0x1000 the largest return
address. -/
theorem exec_keeps_pcOk {i : Instr} {s t : State} (h : exec i s = .next t) (hpc : s.pc.toNat ≤ 0xFFE) (hs : s.pcOk) :
    t.pcOk := by
  obtain ⟨-, hstack⟩ := hs
  constructor
  · rcases exec_pc_cases h with hp | (hp | hp) | ⟨nnn, hp⟩ | ⟨v, nnn, hp⟩ | ⟨k, hk, hp⟩
    · rw [hp]; omega
    · rw [hp]; bv_omega
    · rw [hp]; bv_omega
    · rw [hp, toNat_addressImm]; omega
    · rw [hp, toNat_indexedTarget]; omega
    · rw [hp]; exact (hstack k hk).trans (by decide)
  · by_cases hst : t.stack = s.stack
    · simpa only [hst] using hstack
    · obtain ⟨a, rfl⟩ := (exec_writesOnlyNamedCells h).stack hst
      rcases execCall_cases h with ⟨_, rfl⟩ | ⟨hsp, rfl⟩
      · exact hstack
      · intro k hk
        rw [Vector.getElem_set]
        split
        · bv_omega
        · exact hstack k hk

theorem step_keeps_pcOk {s t : State} (h : step s = .next t) (hs : s.pcOk) : t.pcOk := by
  rcases step_next_cases h with ⟨_, rfl⟩ | ⟨_, u, hu, rfl⟩
  · exact hs
  · rcases instructionPhase_cases hu with ⟨_, _, rfl⟩ | ⟨_, _, _, rfl⟩ | ⟨_, i, hf, _, hexec⟩
    · exact hs
    · exact hs
    · obtain ⟨hpc, -⟩ := (fetch_eq_ok _ _).mp hf
      have hreach : u.pcOk := exec_keeps_pcOk (s := s.setEvent none) hexec hpc hs
      exact hreach

/-- Settles O4: an instruction is run only where it could be fetched, and from there it stays in reach (`exec_keeps_pcOk`). -/
theorem everyStepKeepsPcReach : Obligations.EveryStepKeepsPcReach :=
  fun _ _ hs h => step_keeps_pcOk h hs

/-! ## The host's operations (R240 to R248) -/

/-- Settles O2: reset lists no byte, and `pc` and the stack entries are small. -/
theorem resetMeetsInvariants : Obligations.ResetMeetsInvariants := ⟨rfl, by decide, by decide⟩

theorem resetWith_memOk (s : State) (font : Vector Byte 80) : (s.resetWith font).memOk :=
  Memory.wf_writeBytes _ rfl (by simp)

theorem perform_keeps_invariants {c : HostCall} {s : State} {a : HostAnswer} (hmem : s.memOk) (hpc : s.pcOk)
    (h : perform c s = .next a) : a.state.memOk ∧ a.state.pcOk := by
  cases c with
  | reset font =>
    cases h
    exact ⟨resetWith_memOk s font, resetMeetsInvariants.2⟩
  | loadProgram bytes =>
    by_cases hlen : bytes.length ≤ 3584
    · cases (perform_loadProgram_of_length_le hlen s).symm.trans h
      exact ⟨Memory.wf_writeBytes _ hmem (by omega), hpc⟩
    · cases (perform_loadProgram_of_lt_length (Nat.lt_of_not_le hlen) s).symm.trans h
      exact ⟨hmem, hpc⟩
  | step tick rnd =>
    obtain ⟨t, ht⟩ := everyStepCompletes { s with inputs := ⟨tick, rnd⟩ :: s.inputs }
    rw [perform, stepWith, ht] at h
    cases h
    exact ⟨step_keeps_memOk ht hmem, step_keeps_pcOk ht hpc⟩
  | setKey code pressed =>
    rcases Nat.lt_or_ge code 16 with hcode | hcode
    · rw [perform, setKey_of_lt hcode] at h
      cases h
      exact ⟨hmem, hpc⟩
    · rw [perform, setKey_of_le hcode] at h
      exact absurd h nofun
  | framebuffer => cases h; exact ⟨hmem, hpc⟩
  | takeRedrawFlag => cases h; exact ⟨hmem, hpc⟩
  | toneActive => cases h; exact ⟨hmem, hpc⟩

/-- Settles O54: `reset` makes both anew, `load_program` writes inside the address space, a step keeps both (O3, O4), and the
other calls write neither memory nor `pc` nor the stack. -/
theorem everyHostCallKeepsInvariants : Obligations.EveryHostCallKeepsInvariants :=
  ⟨fun _ _ _ => perform_keeps_invariants, resetMeetsInvariants⟩

theorem performAll_keeps_invariants {calls : List HostCall} {s t : State} (hmem : s.memOk) (hpc : s.pcOk)
    (h : performAll calls s = .next t) : t.memOk ∧ t.pcOk := by
  induction calls generalizing s with
  | nil =>
    cases h
    exact ⟨hmem, hpc⟩
  | cons c rest ih =>
    cases hc : perform c s with
    | next a =>
      rw [performAll, hc] at h
      obtain ⟨hmem', hpc'⟩ := perform_keeps_invariants hmem hpc hc
      exact ih hmem' hpc' h
    | fault r => exact nomatch r
    | refused r => rw [performAll, hc] at h; exact absurd h nofun

/-- Settles O5: the invariants hold at reset and every call keeps them. -/
theorem everyHostRunMeetsInvariants : Obligations.EveryHostRunMeetsInvariants :=
  fun _ _ => performAll_keeps_invariants resetMeetsInvariants.1 resetMeetsInvariants.2

/-! ## The canonical form is unique (log 32) -/

theorem read_head (k : Nat) (b : Byte) (rest : Memory) : Memory.read ((k, b) :: rest) k = b := if_pos rfl

/-- A canonical memory without its first entry: the entry's address reads as unlisted, every other one as before. -/
theorem read_tail {k : Nat} {b : Byte} {rest : Memory} (h : Memory.wf ((k, b) :: rest) = true) (a : Nat) :
    Memory.read rest a = if a = k then Memory.unlisted k else Memory.read ((k, b) :: rest) a := by
  obtain ⟨-, -, habove, -⟩ := Memory.lt_of_wf h
  split
  · subst a
    exact Memory.read_of_above habove
  · rw [Memory.read, if_neg (Ne.symm ‹_›)]

/-- The first entry of a canonical memory is seen by every canonical memory that reads alike: it lists no later address first. -/
theorem head_le_of_read_eq {k j : Nat} {b c : Byte} {m n : Memory} (hm : Memory.wf ((k, b) :: m) = true)
    (hn : Memory.wf ((j, c) :: n) = true) (h : ∀ a, Memory.read ((k, b) :: m) a = Memory.read ((j, c) :: n) a) : j ≤ k := by
  obtain ⟨-, hb, -, -⟩ := Memory.lt_of_wf hm
  obtain ⟨-, -, habove, -⟩ := Memory.lt_of_wf hn
  by_contra hlt
  have hk : Memory.read ((j, c) :: n) k = Memory.unlisted k :=
    Memory.read_of_above (List.forall_mem_cons.mpr ⟨by simpa using hlt, fun e he => lt_trans (by omega) (habove e he)⟩)
  exact hb ((read_head k b m).symm.trans ((h k).trans hk))

/-- A canonical memory with an entry does not read as the empty one. -/
theorem not_read_eq_unlisted {k : Nat} {b : Byte} {m : Memory} (hm : Memory.wf ((k, b) :: m) = true) :
    ¬∀ a, Memory.read ((k, b) :: m) a = Memory.unlisted a := by
  obtain ⟨-, hb, -, -⟩ := Memory.lt_of_wf hm
  exact fun h => hb ((read_head k b m).symm.trans (h k))

/-- Settles O6: by induction on both lists, whose first entries must be the same address with the same byte. -/
theorem canonicalMemoriesReadAlikeAreEqual : Obligations.CanonicalMemoriesReadAlikeAreEqual := by
  intro m
  induction m with
  | nil =>
    intro n _ hn h
    cases n with
    | nil => rfl
    | cons e n => exact absurd (fun a => (h a).symm) (not_read_eq_unlisted hn)
  | cons e m ih =>
    intro n hm hn h
    cases n with
    | nil => exact absurd h (not_read_eq_unlisted hm)
    | cons f n =>
      obtain ⟨k, b⟩ := e
      obtain ⟨j, c⟩ := f
      obtain rfl : k = j := le_antisymm (head_le_of_read_eq hn hm fun a => (h a).symm) (head_le_of_read_eq hm hn h)
      obtain rfl : b = c := (read_head k b m).symm.trans ((h k).trans (read_head k c n))
      obtain ⟨-, -, -, hm'⟩ := Memory.lt_of_wf hm
      obtain ⟨-, -, -, hn'⟩ := Memory.lt_of_wf hn
      rw [ih n hm' hn' fun a => by rw [read_tail hm, read_tail hn, h]]

end Sys2Proof.Proofs
end

section
/-! PROOFS. The statements about the inputs of a step and about the timers. -/

open Sys2Proof Sys2Proof.Machine Sys2Proof.Claims

namespace Sys2Proof.Proofs

/-! ## The timers over a step (R114) -/

/-- Settles O19: the timer phase counts down what the instruction left (`stepRunsDecodedInstruction`), and of the instructions
only `FX15` writes `DT` and only `FX18` writes `ST` (`exec_writesOnlyNamedCells`). -/
theorem timersOverAStep : Obligations.TimersOverAStep := by
  intro s t op i hf hd hkey hstep
  obtain ⟨u, hu, hstep'⟩ := stepRunsDecodedInstruction s op i hf hd hkey
  cases hstep.symm.trans hstep'
  have w := exec_writesOnlyNamedCells hu
  refine ⟨?_, fun hi => ?_, ?_, fun hi => ?_⟩
  · rintro x rfl
    cases hu
    rfl
  · have hDT : u.DT = s.DT := not_ne_iff.mp fun hne => (w.DT hne).elim hi
    exact congrArg (countdown s.tickIn) hDT
  · rintro x rfl
    cases hu
    rfl
  · have hST : u.ST = s.ST := not_ne_iff.mp fun hne => (w.ST hne).elim hi
    exact congrArg (countdown s.tickIn) hST

/-! ## A step with given inputs (R110) -/

theorem instructionPhase_keeps_inputs {s u : State} (h : instructionPhase s = .next u) :
    u.inputs = s.inputs ∧ u.stepIndex = s.stepIndex := by
  rcases instructionPhase_cases h with ⟨_, _, rfl⟩ | ⟨_, _, _, rfl⟩ | ⟨_, _, _, _, hexec⟩
  · exact ⟨rfl, rfl⟩
  · exact ⟨rfl, rfl⟩
  · have w := exec_writesOnlyNamedCells hexec
    exact ⟨w.inputs, w.stepIndex⟩

/-- `Step(tick, rnd)` that waits (R115). -/
theorem stepWith_of_isWaitStep {s : State} (tick : Bool) (rnd : Byte) (hw : isWaitStep s = true) :
    stepWith tick rnd s = .next { s with event := none, stepIndex := s.stepIndex + 1 } :=
  step_of_isWaitStep (s := { s with inputs := ⟨tick, rnd⟩ :: s.inputs }) hw

/-- `Step(tick, rnd)` that does not wait: the instruction phase sees `rnd`, the timer phase `tick`. -/
theorem stepWith_of_instructionPhase {s v : State} {tick : Bool} {rnd : Byte} (hw : isWaitStep s = false)
    (hv : instructionPhase { s with event := none, inputs := ⟨tick, rnd⟩ :: s.inputs } = .next v) :
    stepWith tick rnd s = .next { v with
      DT := countdown tick v.DT
      ST := countdown tick v.ST
      inputs := s.inputs
      stepIndex := s.stepIndex + 1 } := by
  obtain ⟨hinputs, hindex⟩ := instructionPhase_keeps_inputs hv
  have hstep := step_of_instructionPhase (s := { s with inputs := ⟨tick, rnd⟩ :: s.inputs }) hw hv
  rw [timerPhase_consumeInput_eq, hinputs, hindex] at hstep
  exact hstep

/-- The same over the instruction it runs. -/
theorem stepWith_of_exec {s t : State} {op : Word} {i : Instr} {tick : Bool} {rnd : Byte} (hf : fetch s = .ok op)
    (hd : decodeWord op = some i) (hi : ∀ x, i ≠ .ldKey x)
    (ht : exec i { s with event := none, inputs := ⟨tick, rnd⟩ :: s.inputs } = .next t) :
    stepWith tick rnd s = .next { t with
      DT := countdown tick t.DT
      ST := countdown tick t.ST
      inputs := s.inputs
      stepIndex := s.stepIndex + 1 } :=
  stepWith_of_instructionPhase (isWaitStep_eq_false_of_decode hf hd fun ⟨x, hx⟩ => absurd hx (hi x))
    ((instructionPhase_of_decode (s := { s with event := none, inputs := ⟨tick, rnd⟩ :: s.inputs }) hf hd).trans ht)

/-- `Step(tick, rnd)` at a `CXNN` (R161). -/
theorem stepWith_of_rnd {s : State} {op : Word} {x : Reg} {nn : Byte} (tick : Bool) (rnd : Byte) (hf : fetch s = .ok op)
    (hd : decodeWord op = some (.rnd x nn)) : stepWith tick rnd s = .next { s with
      V := (s.setReg x (nn &&& rnd)).V
      pc := s.pc + 2
      DT := countdown tick s.DT
      ST := countdown tick s.ST
      event := none
      stepIndex := s.stepIndex + 1 } :=
  stepWith_of_exec hf hd nofun rfl

/-! ## What an instruction takes from the inputs (R8, R9) -/

/-- A result with the list of inputs replaced in its next state. -/
def setInputsOf (l : List StepInput) : Result → Result
  | .next t => .next { t with inputs := l }
  | .fault r => .fault r
  | .refused r => .refused r

theorem pop_with_inputs (s : State) (l : List StepInput) :
    State.pop { s with inputs := l } = s.pop.map fun p => (p.1, { p.2 with inputs := l }) := by
  unfold State.pop
  split <;> rfl

theorem push_with_inputs (s : State) (v : Word) (l : List StepInput) :
    State.push { s with inputs := l } v = (s.push v).map fun t => { t with inputs := l } := by
  unfold State.push
  split <;> rfl

/-- Replacing the inputs before an instruction is replacing them after it, if they give `CXNN` the same `rnd`: no other
instruction reads them, and none writes them. -/
theorem exec_with_inputs (i : Instr) (s : State) (l : List StepInput)
    (hrnd : ∀ x nn, i = .rnd x nn → State.rndIn { s with inputs := l } = s.rndIn) :
    exec i { s with inputs := l } = setInputsOf l (exec i s) := by
  cases i
  case rnd x nn =>
    rw [exec_rnd, execRnd, hrnd x nn rfl]
    rfl
  case ret =>
    rw [exec_ret, execRet, pop_with_inputs, exec_ret, execRet]
    cases s.pop <;> rfl
  case call =>
    rw [exec_call, execCall, push_with_inputs, exec_call, execCall]
    cases s.push (s.pc + 2) <;> rfl
  case drw x y n =>
    have hbound : accessBound (dataAddress { s with inputs := l }) n.toNat = accessBound (dataAddress s) n.toNat := rfl
    have hextent : extentOutOfBounds (State.reg { s with inputs := l } x) (State.reg { s with inputs := l } y) n =
        extentOutOfBounds (s.reg x) (s.reg y) n := rfl
    rw [exec_drw, execDrw, hbound, hextent, exec_drw, execDrw]
    cases accessBound (dataAddress s) n.toNat
    · cases extentOutOfBounds (s.reg x) (s.reg y) n <;> rfl
    · rfl
  case skp x =>
    have hlatch : keyLatch { s with inputs := l } (State.reg { s with inputs := l } x) = keyLatch s (s.reg x) := rfl
    rw [exec_skp, execSkp, hlatch, exec_skp, execSkp]
    cases keyLatch s (s.reg x) <;> rfl
  case sknp x =>
    have hlatch : keyLatch { s with inputs := l } (State.reg { s with inputs := l } x) = keyLatch s (s.reg x) := rfl
    rw [exec_sknp, execSknp, hlatch, exec_sknp, execSknp]
    cases keyLatch s (s.reg x) <;> rfl
  case ldKey x =>
    have hpick : keyPick { s with inputs := l } = keyPick s := rfl
    rw [exec_ldKey, execLdKey, hpick, exec_ldKey, execLdKey]
    cases keyPick s <;> rfl
  case ldBcd x =>
    have hbound : accessBound (dataAddress { s with inputs := l }) 3 = accessBound (dataAddress s) 3 := rfl
    rw [exec_ldBcd, execLdBcd, hbound, exec_ldBcd, execLdBcd]
    cases accessBound (dataAddress s) 3 <;> rfl
  case stRegs x =>
    have hbound : accessBound (dataAddress { s with inputs := l }) (blockLength x) =
      accessBound (dataAddress s) (blockLength x) := rfl
    rw [exec_stRegs, execStRegs, hbound, exec_stRegs, execStRegs]
    cases accessBound (dataAddress s) (blockLength x) <;> rfl
  case ldRegs x =>
    have hbound : accessBound (dataAddress { s with inputs := l }) (blockLength x) =
      accessBound (dataAddress s) (blockLength x) := rfl
    rw [exec_ldRegs, execLdRegs, hbound, exec_ldRegs, execLdRegs]
    cases accessBound (dataAddress s) (blockLength x) <;> rfl
  -- The other instructions have one outcome each, which reads no input.
  all_goals rfl

/-- The same of the whole instruction phase. -/
theorem instructionPhase_with_inputs (s : State) (l : List StepInput)
    (hrnd : ∀ op x nn, fetch s = .ok op → decodeWord op = some (.rnd x nn) → State.rndIn { s with inputs := l } = s.rndIn) :
    instructionPhase { s with inputs := l } = setInputsOf l (instructionPhase s) := by
  cases hf : fetch s with
  | error c => rw [instructionPhase_of_fetch_error hf, instructionPhase_of_fetch_error (s := { s with inputs := l }) hf]; rfl
  | ok op =>
    cases hd : decodeWord op with
    | none => rw [instructionPhase_of_unknown hf hd, instructionPhase_of_unknown (s := { s with inputs := l }) hf hd]; rfl
    | some i =>
      rw [instructionPhase_of_decode hf hd, instructionPhase_of_decode (s := { s with inputs := l }) hf hd]
      exact exec_with_inputs i s l fun x nn hi => hrnd op x nn hf (hi ▸ hd)

/-- Two steps from the same state, neither a wait step, whose inputs give `CXNN` the same `rnd`: they share the outcome of the
instruction phase, and each runs the timer phase on it with its own `tick`. -/
theorem stepWith_share_instructionPhase {s : State} {tick tick' : Bool} {rnd rnd' : Byte} (hw : isWaitStep s = false)
    (hrnd : ∀ op x nn, fetch s = .ok op → decodeWord op = some (.rnd x nn) → rnd' = rnd) : ∃ v : State,
    stepWith tick rnd s = .next { v with
      DT := countdown tick v.DT
      ST := countdown tick v.ST
      inputs := s.inputs
      stepIndex := s.stepIndex + 1 } ∧
    stepWith tick' rnd' s = .next { v with
      DT := countdown tick' v.DT
      ST := countdown tick' v.ST
      inputs := s.inputs
      stepIndex := s.stepIndex + 1 } := by
  obtain ⟨v, hv⟩ := instructionPhase_completes { s with event := none, inputs := ⟨tick, rnd⟩ :: s.inputs }
  have hphase : instructionPhase { s with event := none, inputs := ⟨tick', rnd'⟩ :: s.inputs } =
      setInputsOf (⟨tick', rnd'⟩ :: s.inputs)
        (instructionPhase { s with event := none, inputs := ⟨tick, rnd⟩ :: s.inputs }) :=
    instructionPhase_with_inputs { s with event := none, inputs := ⟨tick, rnd⟩ :: s.inputs } (⟨tick', rnd'⟩ :: s.inputs) hrnd
  rw [hv] at hphase
  exact ⟨v, stepWith_of_instructionPhase hw hv,
    stepWith_of_instructionPhase (v := { v with inputs := ⟨tick', rnd'⟩ :: s.inputs }) hw hphase⟩

/-- Settles O20: at a `CXNN` the two steps differ in the byte written to `V[X]` (`stepWith_of_rnd`); at any other word they share
the instruction phase and the `tick`; a wait step reads neither input. -/
theorem rndInfluencesOnlyCXNN : Obligations.RndInfluencesOnlyCXNN := by
  intro s tick r1 r2 t u ht hu
  constructor
  · intro op x nn hf hd
    cases (stepWith_of_rnd tick r1 hf hd).symm.trans ht
    cases (stepWith_of_rnd tick r2 hf hd).symm.trans hu
    refine ⟨fun r hr => ?_, rfl⟩
    have hne : r ≠ x := mt List.mem_singleton.mpr hr
    exact (State.reg_setReg_ne s hne _).trans (State.reg_setReg_ne s hne _).symm
  · intro hno
    cases hw : isWaitStep s with
    | true =>
      exact Host.Outcome.next.inj (ht.symm.trans ((stepWith_of_isWaitStep tick r1 hw).trans
        ((stepWith_of_isWaitStep tick r2 hw).symm.trans hu)))
    | false =>
      obtain ⟨v, h1, h2⟩ := stepWith_share_instructionPhase (tick := tick) (tick' := tick) (rnd := r1) (rnd' := r2) hw
        fun op x nn hf hd => absurd hd (hno op x nn hf)
      exact Host.Outcome.next.inj (ht.symm.trans (h1.trans (h2.symm.trans hu)))

/-- Settles O21: a wait step reads neither input; in any other the two steps share the instruction phase, and without a tick the
timer phase leaves its timers as they are. -/
theorem tickInfluencesOnlyTimers : Obligations.TickInfluencesOnlyTimers := by
  intro s rnd t u ht hu
  cases hw : isWaitStep s with
  | true =>
    cases (stepWith_of_isWaitStep true rnd hw).symm.trans ht
    cases (stepWith_of_isWaitStep false rnd hw).symm.trans hu
    exact ⟨rfl, fun _ => rfl, nofun⟩
  | false =>
    obtain ⟨v, h1, h2⟩ := stepWith_share_instructionPhase (tick := true) (tick' := false) (rnd := rnd) (rnd' := rnd) hw
      fun _ _ _ _ _ => rfl
    cases h1.symm.trans ht
    cases h2.symm.trans hu
    exact ⟨rfl, nofun, fun _ => ⟨rfl, rfl⟩⟩

end Sys2Proof.Proofs
end

section
/-! PROOFS. The statements about the ALU: the bitwise and the flagged operations, and the random byte. -/

open Sys2Proof Sys2Proof.Machine Sys2Proof.Claims

namespace Sys2Proof.Proofs

/-- Settles O25: each handler is `writePlain` of the bitwise result. -/
theorem bitwiseOperations : Obligations.BitwiseOperations := by
  intro x y s
  obtain ⟨t, ht, htx, ht'⟩ := writesOneRegister_of_exec_eq_writePlain (exec_orReg x y s)
  obtain ⟨u, hu, hux, hu'⟩ := writesOneRegister_of_exec_eq_writePlain (exec_andReg x y s)
  obtain ⟨w, hw, hwx, hw'⟩ := writesOneRegister_of_exec_eq_writePlain (exec_xorReg x y s)
  refine ⟨t, u, w, ht, hu, hw, fun k _ => ⟨?_, ?_, ?_⟩, ?_⟩
  · rw [htx, BitVec.getLsbD_or]
  · rw [hux, BitVec.getLsbD_and]
  · rw [hwx, BitVec.getLsbD_xor]
  · simp only [List.forall_mem_cons, List.not_mem_nil, false_imp_iff, implies_true, and_true]
    exact ⟨ht', hu', hw'⟩

/-! ## The flagged writes (R156 to R160, R163) -/

/-- An instruction whose handler is `writeFlagged` of `b` and `f` to `V[x]` completes with the flag in `V[15]`, with `b` in `V[x]`
where `x` is not 15, and otherwise writes `pc` alone. -/
theorem writesRegisterAndFlag_of_exec_eq_writeFlagged {i : Instr} {x : Reg} {b v fl : Byte} {f : Bool} {s : State}
    (hexec : exec i s = writeFlagged x b f s) (hb : b = v) (hf : flagByte f = fl) : writesRegisterAndFlag i x v fl s := by
  subst hb hf
  refine ⟨_, hexec.trans (writeFlagged_eq x b f s), fun hx => ?_, ?_, rfl, fun r hr => ?_, rfl, fun _ => rfl⟩
  · rw [State.setPc_reg, State.reg_setReg_ne _ hx, State.reg_setReg_same]
  · exact State.reg_setReg_same _ Reg.vf _
  · simp only [List.mem_cons, List.not_mem_nil, or_false, not_or] at hr
    obtain ⟨hx, hvf⟩ := hr
    rw [State.setPc_reg, State.reg_setReg_ne _ hvf, State.reg_setReg_ne _ hx]

theorem flagByte_decide (p : Prop) [Decidable p] : flagByte (decide p) = if p then 1 else 0 := by
  simp only [flagByte, decide_eq_true_eq]

/-- Settles O26: the handler is `writeFlagged` of the wrapping sum and the carry. -/
theorem addRegistersWithCarry : Obligations.AddRegistersWithCarry :=
  fun _ _ _ => writesRegisterAndFlag_of_exec_eq_writeFlagged rfl (byte_add_eq_ofNat_mod ..) (flagByte_decide _)

/-- Byte subtraction is the difference of the integers modulo 256 (R157). -/
theorem byte_sub_eq_ofNat_mod (a b : Byte) : a - b = BitVec.ofNat 8 ((256 + a.toNat - b.toNat) % 256) :=
  BitVec.eq_of_toNat_eq (by rw [BitVec.toNat_sub, BitVec.toNat_ofNat]; omega)

/-- Settles O27: each handler is `writeFlagged` of the wrapping difference and the comparison, the two operands exchanged. -/
theorem subtractRegistersWithNoBorrow : Obligations.SubtractRegistersWithNoBorrow := fun _ _ _ =>
  ⟨writesRegisterAndFlag_of_exec_eq_writeFlagged rfl (byte_sub_eq_ofNat_mod ..) (flagByte_decide _),
    writesRegisterAndFlag_of_exec_eq_writeFlagged rfl (byte_sub_eq_ofNat_mod ..) (flagByte_decide _)⟩

theorem byte_shiftRight_one (a : Byte) : a >>> 1 = BitVec.ofNat 8 (a.toNat / 2) :=
  BitVec.eq_of_toNat_eq (by rw [BitVec.toNat_ushiftRight, Nat.shiftRight_one, BitVec.toNat_ofNat]; omega)

theorem byte_shiftLeft_one (a : Byte) : a <<< 1 = BitVec.ofNat 8 (a.toNat * 2 % 256) :=
  BitVec.eq_of_toNat_eq (by rw [BitVec.toNat_shiftLeft, Nat.shiftLeft_eq, BitVec.toNat_ofNat, Nat.mod_mod])

/-- A bit of a byte as a flag, when the bits from it upward are that bit alone. -/
theorem flagByte_getLsbD {a : Byte} {k n : Nat} (hn : a.toNat / 2 ^ k % 2 = n) :
    flagByte (a.getLsbD k) = BitVec.ofNat 8 n := by
  subst hn
  rw [BitVec.getLsbD, Nat.testBit_eq_decide_div_mod_eq, flagByte_decide]
  rcases Nat.mod_two_eq_zero_or_one (a.toNat / 2 ^ k) with h | h <;> rw [h] <;> rfl

/-- Settles O28: each handler is `writeFlagged` of the shifted `V[X]` and of its bit 0 or 7; `Y` is not read. -/
theorem shiftRegisterByOne : Obligations.ShiftRegisterByOne := fun _ _ _ =>
  ⟨writesRegisterAndFlag_of_exec_eq_writeFlagged rfl (byte_shiftRight_one _) (flagByte_getLsbD (by omega)),
    writesRegisterAndFlag_of_exec_eq_writeFlagged rfl (byte_shiftLeft_one _) (flagByte_getLsbD (by omega))⟩

/-! ## The random byte (R161) -/

/-- Settles O29: the handler is `writePlain` of the masked input, and the step is known (`stepWith_of_rnd`). -/
theorem randomAndMask : Obligations.RandomAndMask := by
  intro x nn s
  refine ⟨writesOneRegister_of_exec_eq_writePlain rfl, fun op tick rnd hf hd => ?_⟩
  refine ⟨_, stepWith_of_rnd tick rnd hf hd, State.reg_setReg_same s x _, fun r hr => ?_, fun _ => rfl, rfl⟩
  exact State.reg_setReg_ne s (mt List.mem_singleton.mpr hr) _

end Sys2Proof.Proofs
end

section
/-! PROOFS. The statements about control flow: jumps, calls and returns. -/

open Sys2Proof Sys2Proof.Machine Sys2Proof.Claims

namespace Sys2Proof.Proofs

/-- Settles O30: both words are the encodings of the jumps (`decodeWord_encode`), whose handlers write `pc` alone. -/
theorem jumpsSetPc : Obligations.JumpsSetPc := by
  intro nnn s
  refine ⟨decodeWord_encode (.jp nnn), decodeWord_encode (.jpV0 nnn), s.setPc (addressImm nnn),
    s.setPc (indexedTarget (s.reg 0) nnn), rfl, toNat_addressImm nnn, rfl, fun _ => rfl, rfl,
    toNat_indexedTarget (s.reg 0) nnn, rfl, fun _ => rfl, fun v _ hv => ?_⟩
  exact (fetch_eq_error v _).mpr ⟨hv, rfl⟩

/-- A call with a free stack entry (R132). -/
theorem exec_call_of_lt {s : State} (nnn : BitVec 12) (h : s.sp.val < 16) : exec (.call nnn) s = .next { s with
    stack := s.stack.set s.sp.val (s.pc + 2) h
    sp := ⟨s.sp.val + 1, by omega⟩
    pc := addressImm nnn } := by
  obtain ⟨t, ht⟩ := exec_completes (.call nnn) s
  rcases execCall_cases ht with ⟨hsp, _⟩ | ⟨_, rfl⟩
  · omega
  · exact ht

/-- A return with an entry on the stack (R130). -/
theorem exec_ret_of_pos {s : State} (h : 0 < s.sp.val) : exec .ret s = .next { s with
    sp := ⟨s.sp.val - 1, by omega⟩
    pc := s.stack[s.sp.val - 1]'(by omega) } := by
  obtain ⟨t, ht⟩ := exec_completes .ret s
  rcases execRet_cases ht with ⟨hsp, _⟩ | ⟨_, rfl⟩
  · omega
  · exact ht

/-- Settles O31: with a free entry the call is known (`exec_call_of_lt`), with none the table gives its condition. -/
theorem callPushesReturnAddress : Obligations.CallPushesReturnAddress := by
  intro nnn s
  refine ⟨fun hsp => ⟨_, exec_call_of_lt nnn hsp, rfl, fun k hk => ?_, toNat_addressImm nnn, rfl, fun _ => rfl⟩,
    fun hsp => exec_of_conditionOf (if_pos hsp)⟩
  simp only [Vector.getElem_set, eq_comm (a := k)]

/-- Settles O32: with an entry the return is known (`exec_ret_of_pos`), with none the table gives its condition. -/
theorem returnPopsAddress : Obligations.ReturnPopsAddress :=
  fun _ => ⟨fun hsp => ⟨_, exec_ret_of_pos hsp, rfl, rfl, rfl, rfl, fun _ => rfl⟩,
    fun hsp => exec_of_conditionOf (if_pos hsp)⟩

/-- Settles O33: the first step pushes `pc + 2` in entry `sp`; the second fetches 0x00EE at the target and pops that entry. -/
theorem callThenReturnResumes : Obligations.CallThenReturnResumes := by
  intro s op nnn hf hd hsp htarget hhi hlo
  have hcall := step_of_exec hf hd (isWaitStep_eq_false_of_decode hf hd nofun)
    (exec_call_of_lt (s := s.setEvent none) nnn hsp)
  rw [runSteps_succ hcall]
  generalize hs1 : (timerPhase s.tickIn _).consumeInput = s1 at *
  have hpc : s1.pc.toNat = nnn.toNat := by rw [← hs1]; exact toNat_addressImm nnn
  have hmem : s1.mem = s.mem := by rw [← hs1]; rfl
  have hf1 : fetch s1 = .ok 0x00EE := (fetch_eq_ok s1 _).mpr ⟨hpc ▸ htarget, by rw [hpc, hmem, hhi, hlo]; rfl⟩
  have hd1 : decodeWord 0x00EE = some .ret := rfl
  have hsp1 : s1.sp.val = s.sp.val + 1 := by rw [← hs1]; rfl
  have hentry : s1.stack[s.sp.val] = s.pc + 2 := by rw [← hs1]; exact Vector.getElem_set_self hsp
  have hret := step_of_exec hf1 hd1 (isWaitStep_eq_false_of_decode hf1 hd1 nofun)
    (exec_ret_of_pos (s := s1.setEvent none) (hsp1 ▸ Nat.succ_pos _))
  refine ⟨_, runSteps_succ hret, ?_, Fin.ext ?_, rfl, hsp, hentry⟩
  · change s1.stack[s1.sp.val - 1]'_ = s.pc + 2
    simp only [hsp1, Nat.add_sub_cancel, hentry]
  · change s1.sp.val - 1 = s.sp.val
    rw [hsp1, Nat.add_sub_cancel]

end Sys2Proof.Proofs
end

section
/-! PROOFS. The statements about the index register, the block transfers and the program load. -/

open Sys2Proof Sys2Proof.Machine Sys2Proof.Claims

namespace Sys2Proof.Proofs

/-! ## The index register (R171, R172) -/

/-- The glyph address does not wrap (R172). -/
theorem toNat_glyphAddress (v : Byte) : (glyphAddress v).toNat = v.toNat * 5 := by
  have h5 : (5 : Word).toNat = 5 := rfl
  rw [glyphAddress, BitVec.toNat_mul, toNat_zext16, h5, Nat.mod_eq_of_lt (by omega)]

/-- Settles O36: each handler ends sequentially after the write of `I`, by the wrapping sum or by the glyph address. -/
theorem addIndexAndFontAddress : Obligations.AddIndexAndFontAddress := by
  intro x s
  obtain ⟨t, ht, htI, ht'⟩ := writesI_of_exec_eq_sequential_setI (exec_addIndex x s)
  obtain ⟨u, hu, huI, hu'⟩ := writesI_of_exec_eq_sequential_setI (exec_ldFont x s)
  refine ⟨t, u, ht, ?_, hu, ?_, ?_⟩
  · rw [htI, BitVec.toNat_add, toNat_zext16]
  · rw [huI, toNat_glyphAddress]
  · simp only [List.forall_mem_cons, List.not_mem_nil, false_imp_iff, implies_true, and_true]
    exact ⟨ht', hu'⟩

/-! ## The decimal digits (R173) -/

/-- `FX33` in bounds. -/
theorem exec_ldBcd_of_le {s : State} (x : Reg) (h : s.I.toNat + 3 ≤ 4096) : exec (.ldBcd x) s = .next { s with
    mem := Memory.writeBytes s.mem s.I.toNat (bcdDigits (s.reg x))
    pc := s.pc + 2 } := by
  obtain ⟨t, ht⟩ := exec_completes (.ldBcd x) s
  rcases execLdBcd_cases ht with ⟨hb, _⟩ | ⟨_, rfl⟩
  · omega
  · exact ht

theorem toNat_getD_bcdDigits (v : Byte) : ((bcdDigits v).getD 0 0).toNat = v.toNat / 100 ∧
    ((bcdDigits v).getD 1 0).toNat = v.toNat / 10 % 10 ∧ ((bcdDigits v).getD 2 0).toNat = v.toNat % 10 := by
  refine ⟨?_, ?_, ?_⟩ <;> exact (BitVec.toNat_ofNat ..).trans (Nat.mod_eq_of_lt (by omega))

/-- A byte inside a block that has been written. -/
theorem read_writeBytes_of_lt {m : Memory} {a k : Nat} {bytes : List Byte} (hm : Memory.wf m = true)
    (ha : a + bytes.length ≤ 4096) (hk : k < bytes.length) :
    Memory.read (Memory.writeBytes m a bytes) (a + k) = bytes.getD k 0 := by
  rw [Memory.read_writeBytes bytes hm ha, if_pos (by omega), Nat.add_sub_cancel_left]

/-- Settles O37: in bounds the three digits are written and read back, above 0xFFD the table gives the condition. -/
theorem storeDecimalDigits : Obligations.StoreDecimalDigits := by
  intro x s hmem
  refine ⟨fun hI => ?_, fun hI => exec_of_conditionOf (if_pos (by omega))⟩
  obtain ⟨h100, h10, h1⟩ := toNat_getD_bcdDigits (s.reg x)
  have hlen : (bcdDigits (s.reg x)).length = 3 := rfl
  have hread (k : Nat) (hk : k < 3) : Memory.read (Memory.writeBytes s.mem s.I.toNat (bcdDigits (s.reg x)))
      (dataAddress s + k) = (bcdDigits (s.reg x)).getD k 0 := read_writeBytes_of_lt hmem (by omega) (by omega)
  refine ⟨_, exec_ldBcd_of_le x (by omega), ?_, ?_, ?_, ?_, rfl, rfl⟩
  · exact (congrArg BitVec.toNat (hread 0 (by omega))).trans h100
  · exact (congrArg BitVec.toNat (hread 1 (by omega))).trans h10
  · exact (congrArg BitVec.toNat (hread 2 (by omega))).trans h1
  · rintro a rfl c hc
    exact (Memory.read_writeBytes _ hmem (by omega) c).trans (if_neg hc)

/-! ## The block transfers (R174, R175) -/

/-- `FX55` in bounds. -/
theorem exec_stRegs_of_le {s : State} {x : Reg} (h : s.I.toNat + x.toNat ≤ 0xFFF) : exec (.stRegs x) s = .next { s with
    mem := Memory.writeBytes s.mem s.I.toNat (s.firstRegs x)
    I := s.I + BitVec.ofNat 16 (x.toNat + 1)
    pc := s.pc + 2 } := by
  obtain ⟨t, ht⟩ := exec_completes (.stRegs x) s
  rcases execStRegs_cases ht with ⟨hb, _⟩ | ⟨_, rfl⟩
  · omega
  · exact ht

/-- `FX65` in bounds. -/
theorem exec_ldRegs_of_le {s : State} {x : Reg} (h : s.I.toNat + x.toNat ≤ 0xFFF) : exec (.ldRegs x) s = .next { s with
    V := loadRegs s.V 0 (Memory.readBytes s.mem s.I.toNat (x.toNat + 1))
    I := s.I + BitVec.ofNat 16 (x.toNat + 1)
    pc := s.pc + 2 } := by
  obtain ⟨t, ht⟩ := exec_completes (.ldRegs x) s
  rcases execLdRegs_cases ht with ⟨hb, _⟩ | ⟨_, rfl⟩
  · omega
  · exact ht

/-- The index after a block that fits does not wrap. -/
theorem toNat_I_add_block {i : Word} {x : Reg} (h : i.toNat + x.toNat ≤ 0xFFF) :
    (i + BitVec.ofNat 16 (x.toNat + 1)).toNat = i.toNat + x.toNat + 1 := by
  rw [BitVec.toNat_add, BitVec.toNat_ofNat]
  omega

/-- Byte `r` of the block that `FX55` stores is `V[r]` (R174). -/
theorem read_stored_reg {s : State} {x r : Reg} (hmem : s.memOk) (hfit : s.I.toNat + x.toNat ≤ 0xFFF)
    (hr : r.toNat ≤ x.toNat) :
    Memory.read (Memory.writeBytes s.mem s.I.toNat (s.firstRegs x)) (s.I.toNat + r.toNat) = s.reg r := by
  have hlen := length_firstRegs s x
  rw [read_writeBytes_of_lt hmem (by omega) (by omega), getD_firstRegs s x r.toNat r.isLt hr, State.reg]

/-- Settles O38: in bounds the registers are written (`exec_stRegs_of_le`) and read back (`read_stored_reg`), past 0xFFF the table
gives the condition. -/
theorem storeRegisters : Obligations.StoreRegisters := by
  intro x s hmem
  refine ⟨fun hfit => ?_, fun hpast => exec_of_conditionOf (if_pos hpast)⟩
  have hlen := length_firstRegs s x
  refine ⟨_, exec_stRegs_of_le hfit, fun r hr => read_stored_reg hmem hfit hr, ?_, toNat_I_add_block hfit, rfl, rfl⟩
  rintro a rfl c hc
  exact (Memory.read_writeBytes _ hmem (by omega) c).trans (if_neg (hlen.symm ▸ hc))

/-- Settles O39: in bounds each register up to `X` takes its byte (`reg_of_loadRegs`), past 0xFFF the table gives the condition. -/
theorem loadRegisters : Obligations.LoadRegisters := by
  intro x s
  refine ⟨fun hfit => ?_, fun hpast => exec_of_conditionOf (if_pos hpast)⟩
  refine ⟨_, exec_ldRegs_of_le hfit, fun r hr => ?_, fun r hr => ?_, toNat_I_add_block hfit, rfl, fun _ => rfl, rfl⟩
  · exact (reg_of_loadRegs s x r s.mem s.I.toNat).trans (if_pos hr)
  · exact (reg_of_loadRegs s x r s.mem s.I.toNat).trans (if_neg (Nat.not_le_of_lt hr))

/-- Settles O40: the load takes byte `r` of the stored block (O39), which is the old `V[r]` (`read_stored_reg`). -/
theorem storeThenLoadRestoresRegisters : Obligations.StoreThenLoadRestoresRegisters := by
  intro x s t w hmem hfit hstore hwmem hwI
  cases (exec_stRegs_of_le hfit).symm.trans hstore
  obtain ⟨v, hv, hlow, hhigh, -⟩ := (loadRegisters x w).1 (hwI ▸ hfit)
  refine ⟨v, hv, fun r hr => ?_, hhigh⟩
  rw [hlow r hr, hwmem, hwI, read_stored_reg hmem hfit hr]

/-- Settles O41: the fetch reads two neighbouring bytes of the stored block (`fetch_eq_ok`, `read_stored_reg`). -/
theorem storeIsSeenByFetch : Obligations.StoreIsSeenByFetch := by
  intro x s t w hmem hfit hstore hwmem r q hq hqx hpc
  cases (exec_stRegs_of_le hfit).symm.trans hstore
  refine (fetch_eq_ok w _).mpr ⟨by omega, ?_⟩
  rw [hpc, Nat.add_assoc, ← hq, hwmem, read_stored_reg hmem hfit (by omega), read_stored_reg hmem hfit hqx]

/-! ## The program load (R242) -/

/-- Settles O49: the load writes the bytes from 0x200 (`perform_loadProgram_of_length_le`), which end below 0x1000. -/
theorem loadProgramCopies : Obligations.LoadProgramCopies := by
  intro bytes s hmem hlen
  refine ⟨_, perform_loadProgram_of_length_le hlen s, fun k hk => ?_, fun c hc => ?_, rfl⟩
  · rw [State.setMem_mem, read_writeBytes_of_lt hmem (by omega) hk, List.getD_eq_getElem _ _ hk]
  · rw [State.setMem_mem, Memory.read_writeBytes _ hmem (by omega), if_neg hc]

end Sys2Proof.Proofs
end

section
/-! PROOFS. The statements about the display: clearing, drawing and the collision flag. -/

open Sys2Proof Sys2Proof.Machine Sys2Proof.Claims

namespace Sys2Proof.Proofs

/-- Settles O42: the handler ends sequentially after the framebuffer is blanked (`pixel_blankFb`). -/
theorem clearScreen : Obligations.ClearScreen :=
  fun s => ⟨_, sequential_eq (s.setFb blankFb), fun x y _ _ => pixel_blankFb x y, rfl, rfl, fun _ => rfl⟩

/-- Settles O44: in each clause R220's table gives the condition, the memory bound before the extent. -/
theorem drawOutOfBoundsChangesNothing : Obligations.DrawOutOfBoundsChangesNothing := by
  intro x y n s hn
  have hpos : 1 ≤ n.toNat := Nat.one_le_iff_ne_zero.mpr fun h => hn (BitVec.eq_of_toNat_eq h)
  refine ⟨fun hmem => exec_of_conditionOf (if_pos (by omega)), fun hmem hextent => exec_of_conditionOf ?_⟩
  exact (if_neg (by omega)).trans (if_pos ⟨hpos, hextent⟩)

/-! ## A drawing as an exclusive or (R191 to R193) -/

/-- The drawing `d` is what the set bits of the pattern `p` make of the framebuffer `f`: every pixel XORed with its bit, and a
collision exactly when a set bit fell on a set pixel. -/
structure DrawnBy (f : Framebuffer) (p : Nat → Nat → Bool) (d : Drawing) : Prop where
  pixel_eq : ∀ c r, pixel d.fb c r = (pixel f c r ^^ p c r)
  collision_iff : d.collision = true ↔ ∃ c r, p c r = true ∧ pixel f c r = true

theorem DrawnBy.congr {f : Framebuffer} {p q : Nat → Nat → Bool} {d : Drawing} (h : DrawnBy f p d)
    (hpq : ∀ c r, p c r = q c r) : DrawnBy f q d :=
  (funext fun c => funext fun r => hpq c r : p = q) ▸ h

/-- The drawing that no bit has touched yet. -/
theorem drawnBy_start (f : Framebuffer) : DrawnBy f (fun _ _ => false) ⟨f, false⟩ :=
  ⟨fun _ _ => (Bool.xor_false _).symm, by simp⟩

/-- One bit at a place that no bit has fallen on yet. -/
theorem DrawnBy.plotBit {f : Framebuffer} {p : Nat → Nat → Bool} {d : Drawing} {x y : Nat} (h : DrawnBy f p d) (hx : x < 64)
    (hy : y < 32) (hfree : p x y = false) (b : Bool) :
    DrawnBy f (fun c r => p c r || (b && decide (c = x ∧ r = y))) (plotBit d x y b) := by
  obtain ⟨hpixel, hcollision⟩ := plotBit_eq d x y b hx hy
  have hold : pixel d.fb x y = pixel f x y := by rw [h.pixel_eq, hfree, Bool.xor_false]
  refine ⟨fun c r => ?_, ?_⟩
  · rw [hpixel, h.pixel_eq, Bool.xor_assoc]
    by_cases hcr : c = x ∧ r = y
    · obtain ⟨rfl, rfl⟩ := hcr
      simp [hfree]
    · simp [hcr]
  · rw [hcollision, hold, Bool.or_eq_true, h.collision_iff]
    constructor
    · rintro (⟨c, r, hp, hf⟩ | hbit)
      · exact ⟨c, r, by simp [hp], hf⟩
      · rw [Bool.and_eq_true] at hbit
        exact ⟨x, y, by simp [hbit.1], hbit.2⟩
    · rintro ⟨c, r, hp, hf⟩
      simp only [Bool.or_eq_true, Bool.and_eq_true, decide_eq_true_eq] at hp
      rcases hp with hp | ⟨hb, rfl, rfl⟩
      · exact .inl ⟨c, r, hp, hf⟩
      · exact .inr (by rw [hb, hf]; rfl)

/-- The first `k` bits of row byte `b` at column `x0`, row `y`. -/
def rowBits (x0 y : Nat) (b : Byte) (k c r : Nat) : Bool := decide (r = y ∧ x0 ≤ c ∧ c < x0 + k) && spriteBit b (c - x0)

theorem rowBits_succ (x0 y : Nat) (b : Byte) (k c r : Nat) : rowBits x0 y b (k + 1) c r =
    (rowBits x0 y b k c r || (spriteBit b k && decide (c = x0 + k ∧ r = y))) := by
  by_cases hc : c = x0 + k
  · subst hc
    simp [rowBits, Bool.and_comm]
  · have hlt : c < x0 + (k + 1) ↔ c < x0 + k := by omega
    simp [rowBits, hc, hlt]

/-- A row of bits in a row that no bit has fallen on yet. -/
theorem DrawnBy.drawRow {f : Framebuffer} {p : Nat → Nat → Bool} {d : Drawing} {x0 y : Nat} (h : DrawnBy f p d)
    (hx : x0 ≤ 56) (hy : y < 32) (hfree : ∀ c, p c y = false) (b : Byte) :
    DrawnBy f (fun c r => p c r || rowBits x0 y b 8 c r) (drawRow x0 y b d) := by
  have hcolumns (k : Nat) (hk : k ≤ 8) : DrawnBy f (fun c r => p c r || rowBits x0 y b k c r)
      ((List.range k).foldl (fun d c => Machine.plotBit d (x0 + c) y (spriteBit b c)) d) := by
    induction k with
    | zero => exact h.congr fun c r => by simp [rowBits]
    | succ k ih =>
      rw [List.range_succ, List.foldl_append, List.foldl_cons, List.foldl_nil]
      refine ((ih (by omega)).plotBit (by omega) hy ?_ (spriteBit b k)).congr fun c r => ?_
      · simp [hfree, rowBits]
      · rw [rowBits_succ, Bool.or_assoc]
  exact hcolumns 8 le_rfl

/-- The bits of the row bytes `rows` at column `x0` from row `y` downward. -/
def spriteBits (x0 y : Nat) (rows : List Byte) (c r : Nat) : Bool :=
  decide (x0 ≤ c ∧ c < x0 + 8 ∧ y ≤ r ∧ r < y + rows.length) && spriteBit (rows.getD (r - y) 0) (c - x0)

theorem spriteBits_cons (x0 y : Nat) (b : Byte) (rows : List Byte) (c r : Nat) : spriteBits x0 y (b :: rows) c r =
    (rowBits x0 y b 8 c r || spriteBits x0 (y + 1) rows c r) := by
  by_cases hr : r = y
  · subst hr
    simp [rowBits, spriteBits]
  · by_cases hlt : r < y
    · have habove : ¬y ≤ r ∧ ¬y + 1 ≤ r := by omega
      simp [rowBits, spriteBits, hr, habove]
    · have hsub : r - y = (r - (y + 1)) + 1 := by omega
      have hin : (y ≤ r ∧ r < y + (rows.length + 1)) ↔ (y + 1 ≤ r ∧ r < y + 1 + rows.length) := by omega
      simp [rowBits, spriteBits, hr, hsub, hin]

/-- The rows of a sprite in the grid, below every row that a bit has fallen on. -/
theorem DrawnBy.drawRows {f : Framebuffer} {x0 : Nat} (hx : x0 ≤ 56) (rows : List Byte) {p : Nat → Nat → Bool}
    {d : Drawing} {y : Nat} (h : DrawnBy f p d) (hy : y + rows.length ≤ 32) (hfree : ∀ c r, y ≤ r → p c r = false) :
    DrawnBy f (fun c r => p c r || spriteBits x0 y rows c r) (drawRows x0 y rows d) := by
  induction rows generalizing p d y with
  | nil => exact h.congr fun c r => by simp [spriteBits]
  | cons b rows ih =>
    rw [List.length_cons] at hy
    have hrow := h.drawRow hx (by omega) (fun c => hfree c y le_rfl) b
    refine (ih hrow (by omega) fun c r hr => ?_).congr fun c r => ?_
    · have hne : r ≠ y := by omega
      simp [hfree c r (by omega), rowBits, hne]
    · rw [spriteBits_cons, Bool.or_assoc]

/-! ## The draw (R191) -/

/-- The pattern of a draw is the sprite bits that the spec lets land on the grid (R192). -/
theorem spriteAt_eq_spriteBits (s : State) (x y : Reg) (n : BitVec 4) (c r : Nat) : spriteAt s x y n c r =
    spriteBits (s.reg x).toNat (s.reg y).toNat (Memory.readBytes s.mem s.I.toNat n.toNat) c r := by
  rw [spriteAt, spriteBits, Memory.length_readBytes]
  by_cases h : (s.reg y).toNat ≤ r ∧ r < (s.reg y).toNat + n.toNat
  · rw [Memory.getD_readBytes _ _ _ _ (by omega), spriteBit]
  · have hout : ¬((s.reg x).toNat ≤ c ∧ c < (s.reg x).toNat + 8 ∧ (s.reg y).toNat ≤ r ∧ r < (s.reg y).toNat + n.toNat) :=
      fun hin => h hin.2.2
    rw [decide_eq_false hout, Bool.false_and, Bool.false_and]

/-- A draw in bounds draws the sprite; with `N = 0` there is no row to draw and no bit in the pattern. -/
theorem drawnBy_drawing {s : State} {x y : Reg} {n : BitVec 4} (h : drawFits s x y n) :
    DrawnBy s.fb (spriteAt s x y n) (drawing x y n s) := by
  rw [funext fun c => funext fun r => spriteAt_eq_spriteBits s x y n c r, drawing]
  rcases (drawFits_iff s x y n).mp h with h0 | ⟨-, hx, hy⟩
  · rw [h0]
    exact (drawnBy_start s.fb).congr fun c r => by simp [spriteBits, Memory.readBytes]
  · exact ((drawnBy_start s.fb).drawRows hx _ (by rwa [Memory.length_readBytes]) fun _ _ _ => rfl).congr fun c r =>
      Bool.false_or _

theorem lt_of_pixel {f : Framebuffer} {c r : Nat} (h : pixel f c r = true) : c < 64 ∧ r < 32 := by
  by_contra hout
  exact absurd ((pixel_of_not hout).symm.trans h) nofun

/-- A collision is a pixel that goes from 1 to 0 (R193). -/
theorem DrawnBy.collision_iff_cleared {f : Framebuffer} {p : Nat → Nat → Bool} {d : Drawing} (h : DrawnBy f p d) :
    d.collision = true ↔ ∃ c r, c < 64 ∧ r < 32 ∧ pixel f c r = true ∧ pixel d.fb c r = false := by
  rw [h.collision_iff]
  constructor
  · rintro ⟨c, r, hp, hf⟩
    obtain ⟨hc, hr⟩ := lt_of_pixel hf
    exact ⟨c, r, hc, hr, hf, by rw [h.pixel_eq, hp, hf]; rfl⟩
  · rintro ⟨c, r, -, -, hf, hd⟩
    rw [h.pixel_eq, hf, Bool.true_xor, Bool.not_eq_false'] at hd
    exact ⟨c, r, hd, hf⟩

/-- Settles O43: the outcome of a draw in bounds is known (`exec_drw_of_fits`), and its drawing is the exclusive or with the
sprite (`drawnBy_drawing`), whose collision is the flag. -/
theorem drawXorsSprite : Obligations.DrawXorsSprite := by
  intro x y n s hfit
  have hdraw := drawnBy_drawing hfit
  have hflag : State.reg { s with V := s.V.set 15 (flagByte (drawing x y n s).collision) } 15 =
      flagByte (drawing x y n s).collision := State.reg_setReg_same s 15 _
  refine ⟨_, exec_drw_of_fits hfit, fun c r _ _ => hdraw.pixel_eq c r, fun hcleared => ?_, fun hkept => ?_, rfl, rfl,
    fun r hr => ?_, fun _ => rfl, rfl⟩
  · exact hflag.trans (congrArg flagByte (hdraw.collision_iff_cleared.mpr hcleared))
  · exact hflag.trans (congrArg flagByte (Bool.eq_false_iff.mpr (mt hdraw.collision_iff_cleared.mp hkept)))
  · exact State.reg_setReg_ne s (mt List.mem_singleton.mpr hr) _

/-! ## The same draw again -/

/-- A draw depends on memory, `I` and its anchor registers alone, and fits wherever they are the same. -/
theorem spriteAt_congr {s t : State} {x y : Reg} (hmem : sameMemory s t) (hI : t.I = s.I) (hx : t.reg x = s.reg x)
    (hy : t.reg y = s.reg y) (n : BitVec 4) : spriteAt t x y n = spriteAt s x y n := by
  funext c r
  simp only [spriteAt, hI, hx, hy, hmem _]

theorem drawFits_congr {s t : State} {x y : Reg} {n : BitVec 4} (hI : t.I = s.I) (hx : t.reg x = s.reg x)
    (hy : t.reg y = s.reg y) (h : drawFits s x y n) : drawFits t x y n := by
  simpa only [drawFits, hI, hx, hy] using h

/-- Settles O45: the second draw XORs the same sprite bits (`spriteAt_congr`), so every pixel comes back, and the pixels it clears
are those the first one turned on. -/
theorem drawTwiceRestoresFramebuffer : Obligations.DrawTwiceRestoresFramebuffer := by
  intro x y n s t hx hy hfit hexec
  obtain ⟨t', ht', hpixel, -, -, -, -, hregs, hmem, hframe⟩ := drawXorsSprite x y n s hfit
  cases ht'.symm.trans hexec
  have hI : t.I = s.I := by rw [hframe]
  have hrx : t.reg x = s.reg x := hregs x (mt List.mem_singleton.mp hx)
  have hry : t.reg y = s.reg y := hregs y (mt List.mem_singleton.mp hy)
  obtain ⟨u, hu, hpixel', hset, hclear, -⟩ := drawXorsSprite x y n t (drawFits_congr hI hrx hry hfit)
  have hback : u.fb = s.fb := fb_ext fun c r hc hr => by
    rw [hpixel' c r hc hr, spriteAt_congr hmem hI hrx hry, hpixel c r hc hr, Bool.xor_assoc, Bool.xor_self, Bool.xor_false]
  refine ⟨u, hu, hback, ?_⟩
  rw [hback] at hset hclear
  constructor
  · intro hone
    by_contra hnone
    have hzero := hclear fun ⟨c, r, hc, hr, ht, hs⟩ => hnone ⟨c, r, hc, hr, hs, ht⟩
    exact absurd (hone.symm.trans hzero) (by decide)
  · rintro ⟨c, r, hc, hr, hs, ht⟩
    exact hset ⟨c, r, hc, hr, ht, hs⟩

end Sys2Proof.Proofs
end

section
/-! PROOFS. The statements about the keys, the timer instructions and `set_key`. -/

open Sys2Proof Sys2Proof.Machine Sys2Proof.Claims

namespace Sys2Proof.Proofs

/-! ## Keys (R200, R201, R203) -/

theorem exec_skp_of_lt {s : State} {x : Reg} (h : (s.reg x).toNat < 16) :
    exec (.skp x) s = skipIf s.key[(s.reg x).toNat] s := by
  rw [exec_skp, execSkp, keyLatch_eq, dif_pos h]

theorem exec_sknp_of_lt {s : State} {x : Reg} (h : (s.reg x).toNat < 16) :
    exec (.sknp x) s = skipIf (!s.key[(s.reg x).toNat]) s := by
  rw [exec_sknp, execSknp, keyLatch_eq, dif_pos h]

/-- Settles O46: for a code up to 15 each handler is `skipIf` on the latch or its negation, above 15 the table gives the
condition. -/
theorem keySkips : Obligations.KeySkips := by
  intro x s
  refine ⟨fun h => ⟨?_, ?_⟩, fun h => ⟨exec_of_conditionOf (if_pos h), exec_of_conditionOf (if_pos h)⟩⟩
  · exact skipsWhen_of_exec_eq_skipIf (exec_skp_of_lt h) Iff.rfl
  · exact skipsWhen_of_exec_eq_skipIf (exec_sknp_of_lt h) (by rw [Bool.not_eq_true'])

/-- Settles O47: `KEY_PICK` finds the lowest set code (`keyPick_eq_some`), which the handler writes plainly, or none
(`keyPick_eq_none`), where the handler answers the state it was given. -/
theorem loadKeyPicksLowest : Obligations.LoadKeyPicksLowest := by
  intro x s
  refine ⟨fun k hk hset hbelow => ?_, fun hopen => ?_⟩
  · have hpick : keyPick s = some k := (keyPick_eq_some s k).mpr ⟨hk, hset, hbelow⟩
    have hexec : exec (.ldKey x) s = writePlain x (BitVec.ofNat 8 k) s := by
      rw [exec_ldKey, execLdKey, hpick]
      rfl
    exact writesOneRegister_of_exec_eq_writePlain hexec
  · rw [exec_ldKey, execLdKey, (keyPick_eq_none s).mpr hopen]

/-! ## The timer instructions (R202, R205, R206) -/

/-- Settles O48: the three words are the encodings (`decodeWord_encode`); each handler is one write, and over a step the timer phase
counts down what it left (`stepWith_of_exec`). -/
theorem timerInstructions : Obligations.TimerInstructions := by
  intro x s
  have hdFrom := decodeWord_encode (.ldFromDt x)
  have hdDT := decodeWord_encode (.ldToDt x)
  have hdST := decodeWord_encode (.ldToSt x)
  refine ⟨hdFrom, writesOneRegister_of_exec_eq_writePlain rfl, hdDT, rfl, hdST, rfl,
    fun tick rnd => ⟨fun hf => ?_, fun hf => ?_, fun hf => ?_⟩⟩
  · exact ⟨_, stepWith_of_exec hf hdFrom nofun rfl, State.reg_setReg_same s x s.DT, rfl, rfl⟩
  · exact ⟨_, stepWith_of_exec hf hdDT nofun rfl, rfl, rfl⟩
  · exact ⟨_, stepWith_of_exec hf hdST nofun rfl, rfl, rfl, rfl⟩

/-! ## `set_key` (R244) -/

/-- Settles O51: the call writes one entry of the latches, where the code is one of theirs. -/
theorem setKeyWritesOneLatch : Obligations.SetKeyWritesOneLatch := by
  intro code pressed s
  refine ⟨fun h => ⟨{ s with key := s.key.set code pressed h }, ?_, Vector.getElem_set_self h, fun k hk hne => ?_, rfl⟩,
    fun h => ?_⟩
  · rw [perform, setKey_of_lt h]
  · exact Vector.getElem_set_ne h hk hne.symm
  · rw [perform, setKey_of_le h]

end Sys2Proof.Proofs
end
